-- ==== Sys2Proof/Word.lean ====
section
/-! DEFINITION. The values of the core: words, addresses and digits.

R8: every value is a mathematical integer written in decimal and no value is a bit vector, so a memory word and the
value of the accumulator are plain `Int`s (R25, R43) and nothing wraps. An address and a digit are bounded numbers: no value outside the
bound can be written down. -/

namespace Sys2Proof

/-- A word address, an operand or a value of IP: 0 to 99 (R6, R23, R40, R62). -/
abbrev Addr := Fin 100

/-- One decimal digit: an opcode (R62) or a shift count (R64). -/
abbrev Digit := Fin 10

end Sys2Proof
end

