-- ==== Sys2Proof/Syntax.lean ====
section
/-! DEFINITION. The instructions: one constructor for each row of the opcode table (R65), in the table's order.

A constructor carries every digit of its word, the ignored ones of opcodes 0 and 9 too, so that decoding drops nothing
(log entry 8, DEDUCED). -/

namespace Sys2Proof

inductive Instr where
  /-- Opcode 0, reserved (R140); its operand digits are ignored. -/
  | op0 (ignored : Addr)
  /-- Opcode 1, load (R100). -/
  | cla (a : Addr)
  /-- Opcode 2, add (R120). -/
  | add (a : Addr)
  /-- Opcode 3, test-and-branch (R141). -/
  | tac (target : Addr)
  /-- Opcode 4, shift left by `left` digits, then right by `right` (R64, R122). -/
  | sft (left right : Digit)
  /-- Opcode 5, output a memory word (R102). -/
  | out (a : Addr)
  /-- Opcode 6, store (R101). -/
  | sto (a : Addr)
  /-- Opcode 7, subtract (R121). -/
  | sub (a : Addr)
  /-- Opcode 8, jump-and-link (R143). -/
  | jmp (target : Addr)
  /-- Opcode 9, halt (R144); its operand digits are ignored. -/
  | hlt (ignored : Addr)
  /-- A negative word, which is no instruction and is skipped (R61, R82). -/
  | skip (w : Int)
  deriving DecidableEq, Repr

end Sys2Proof
end

