-- ==== Sys2Proof/WellFormed.lean ====
section
/-! DEFINITION. Which terms of `Instr` stand for a word.

Operands and counts are bounded by their types (R62, R64). What is left to check is the skip, which stands for
negative words only (R61; a word below -999 is skipped too, R67). -/

namespace Sys2Proof

/-- The term stands for a word the machine can fetch. -/
def Instr.wellFormed : Instr → Bool
  | .op0 _ => true
  | .cla _ => true
  | .add _ => true
  | .tac _ => true
  | .sft _ _ => true
  | .out _ => true
  | .sto _ => true
  | .sub _ => true
  | .jmp _ => true
  | .hlt _ => true
  | .skip w => decide (w < 0)

end Sys2Proof
end

