-- ==== Sys2Proof/Decode.lean ====
section
/-! DEFINITION. The decoder and the encoder (R61 to R68). -/

namespace Sys2Proof

/-- Why the decoder refuses a word. -/
inductive DecodeError where
  /-- The word is over 999: its opcode `w tdiv 100` would be 10 or more and no handler exists (R67, R83). -/
  | noHandler (w : Int)
  deriving DecidableEq, Repr

/-- The two shift counts of an SFT operand: tens digit and units digit (R64). -/
def shiftCounts (operand : Addr) : Digit × Digit :=
  (⟨operand.val / 10, by omega⟩, ⟨operand.val % 10, by omega⟩)

/-- The handler an opcode selects, with its operand (R65, R84). -/
def instrOf (opcode : Digit) (operand : Addr) : Instr :=
  match opcode with
  | 0 => .op0 operand
  | 1 => .cla operand
  | 2 => .add operand
  | 3 => .tac operand
  | 4 => .sft (shiftCounts operand).1 (shiftCounts operand).2
  | 5 => .out operand
  | 6 => .sto operand
  | 7 => .sub operand
  | 8 => .jmp operand
  | 9 => .hlt operand

/-- `opcode := w tdiv 100` (R62, R83). -/
def opcodeField (w : Int) : Int := w.tdiv 100

/-- `operand := w - opcode * 100` (R62, R83). -/
def operandField (w : Int) : Int := w - opcodeField w * 100

/-- Decode a fetched word: a negative word is the skip, a word 0 to 999 one of the ten opcodes, and a word over 999
has no handler (R61, R62, R67). The word 12 is opcode 0 with operand 12, as R62, R65 and ruling C1 have it; the sentence
of R207, repeated in C5, that 12 encodes `CLA 12` is set aside (log entry 9, DEDUCED). -/
def decode (w : Int) : Except DecodeError Instr :=
  if w < 0 then .ok (.skip w)
  else if h : (opcodeField w).toNat < 10 then
    .ok (instrOf ⟨(opcodeField w).toNat, h⟩ (Fin.ofNat 100 (operandField w).toNat))
  else .error (.noHandler w)

/-- `encode(o, a) = 100*o + a` (R68). -/
def encodeFields (opcode : Digit) (operand : Addr) : Int := 100 * (opcode.val : Int) + operand.val

/-- For SFT, `a = 10*left + right` (R68). -/
def shiftOperand (left right : Digit) : Addr := ⟨10 * left.val + right.val, by omega⟩

/-- The word that stands for an instruction (R65, R68). -/
def encode : Instr → Int
  | .op0 x => encodeFields 0 x
  | .cla a => encodeFields 1 a
  | .add a => encodeFields 2 a
  | .tac a => encodeFields 3 a
  | .sft l r => encodeFields 4 (shiftOperand l r)
  | .out a => encodeFields 5 a
  | .sto a => encodeFields 6 a
  | .sub a => encodeFields 7 a
  | .jmp a => encodeFields 8 a
  | .hlt x => encodeFields 9 x
  | .skip w => w

/-- The word a host's bit pattern `w` of `nbits` bits names. The core has no bits (R8), so this numbering is the
model's (log entry 4, DESIGN CHOICE): the pattern's value, and in a field of 11 bits or more (the least that hold a
sign and 999) the upper half of the patterns are the negative words. -/
def tableWord (nbits w : Nat) : Int :=
  if 11 ≤ nbits ∧ 2 ^ (nbits - 1) ≤ w ∧ w < 2 ^ nbits then (w : Int) - 2 ^ nbits else w

/-- What the decoder reads from that word. -/
def decodeTableWord (nbits w : Nat) : Option Instr :=
  match decode (tableWord nbits w) with
  | .ok i => some i
  | .error _ => none

end Sys2Proof
end

