-- ==== Sys2Proof/Config.lean ====
section
/-! DEFINITION. What one implementation of the core fixes and the spec leaves open (R7). -/

namespace Sys2Proof

/-- The open parameters of a core. R7 leaves exactly one: OP0_ADVANCE. The machine's state carries it, no step and no
command changes it, and a statement about every state holds for both values (log entry 1, DESIGN CHOICE). -/
structure Config where
  /-- OP0_ADVANCE (R7, R140, D2): true when opcode 0 advances IP by 1, false when it leaves IP unchanged. -/
  op0Advance : Bool
  deriving DecidableEq, Repr

/-- The reference core: OP0_ADVANCE = false (R7, R140: "The reference behaviour is false"). -/
def Config.reference : Config := { op0Advance := false }

end Sys2Proof
end

