-- ==== Sys2Proof/Machine/State.lean ====
section
/-! DEFINITION. The machine's state (R20, R31), the reasons it stops (R182), and the state after reset (R200, R201). -/

namespace Sys2Proof.Machine

/-- The run state RS (R26). -/
inductive RunState where
  | running
  | halted
  | paused
  | step
  deriving DecidableEq, Repr

/-- The output register OUTR: blank, or the last word put out. Blank is distinct from every number (R27). -/
inductive Output where
  | blank
  | val (v : Int)
  deriving DecidableEq, Repr

/-- The model faults (R182). The spec gives the state after one no meaning (R183). All three are safe: the machine
stops where the source defines nothing. -/
inductive Fault where
  /-- A sequential advance from IP = 99 (R88). Raised by CLA, ADD, SFT, OUT, STO, SUB, TAC not taken, opcode 0 when
  OP0_ADVANCE is true, and the skip. IP keeps the value 99. Safe. -/
  | ipOverflow
  /-- An exact sum or difference, or SFT's product, outside ACC_MIN to ACC_MAX (R11). Raised by ADD, SUB, SFT. Safe. -/
  | accOverflow
  /-- The fetch of a word over 999, recorded with the word (R83). Raised by the tick before dispatch. Safe. -/
  | undecodableWord (w : Int)
  deriving DecidableEq, Repr

/-- Why the model gives an instruction no meaning. -/
inductive Refusal where
  /-- Raised by an arm of `exec` for an instruction without a meaning yet; no arm does so now. Safe. -/
  | notModelled (mnemonic : String)
  deriving DecidableEq, Repr

/-- One listed word: its address and its value. -/
abbrev Cell := Nat × Int

/-- The memory M as the list of the words that differ from the hard-reset image, addresses strictly rising
(log entry 2, DESIGN CHOICE). What an unlisted address reads as is `Sys2Proof.Machine.bootWord`. -/
abbrev Memory := List Cell

/-- The five architectural components of R20, the model's fault record (R31), and the machine's parameter (R7). -/
structure State where
  /-- ACC (R21). -/
  acc : Int
  /-- IP, "address of next instruction" (R23). -/
  ip : Addr
  /-- M[0..99] (R25). -/
  mem : Memory
  /-- RS (R26). -/
  rs : RunState
  /-- OUTR (R27). -/
  outr : Output
  /-- The fault code of a model fault; once set, never cleared (R31, R183; log entry 3, DEDUCED). Not architectural. -/
  faultRecord : Option Fault
  /-- The machine's parameter (R7); nothing writes it (log entry 1). -/
  cfg : Config
  deriving DecidableEq, Repr

/-- The state after cold construction, which is the hard-reset state (R200, R201, R32), of a core with parameter
`cfg`: nothing is listed in memory, so memory is the bootstrap image. -/
def State.resetWith (cfg : Config) : State :=
  { acc := 0, ip := 0, mem := [], rs := .running, outr := .blank, faultRecord := none, cfg := cfg }

/-- The reference core right after reset. -/
def State.reset : State := State.resetWith Config.reference

end Sys2Proof.Machine
end

