-- ==== Sys2Proof/Machine/Params.lean ====
section
/-! DEFINITION. The fixed sizes of the core (R6) and the bounds R7 settles. -/

namespace Sys2Proof.Machine

/-- MEM_WORDS (R6). -/
def memWords : Nat := 100

/-- WORD_MAX (R6): a memory word v has -999 <= v <= 999. -/
def wordMax : Int := 999

/-- SFT_MOD (R6). -/
def sftMod : Int := 10000

/-- STO_MOD (R6). -/
def stoMod : Int := 1000

/-- LINK_ADDR (R6). -/
def linkAddr : Addr := 99

/-- LINK_BIAS (R6). -/
def linkBias : Int := 801

/-- ACC_MIN (R7). -/
def accMin : Int := -9223372036854775808

/-- ACC_MAX (R7). -/
def accMax : Int := 9223372036854775807

/-- BOOT_IMAGE (R6, R201): the word at an address after a hard reset, which is what an unlisted address reads as. -/
def bootWord : Nat → Int
  | 0 => 197
  | 1 => 298
  | 2 => 420
  | 3 => 695
  | 4 => 595
  | 5 => 900
  | 97 => -40
  | 98 => 24
  | 99 => 12
  | _ => 0

/-- A value that a memory word may hold: -999 <= v <= 999 (R25). -/
def wordFits (v : Int) : Bool := decide (-wordMax ≤ v ∧ v ≤ wordMax)

/-- A value that the accumulator may hold: ACC_MIN <= v <= ACC_MAX (R11, R21). -/
def accFits (v : Int) : Bool := decide (accMin ≤ v ∧ v ≤ accMax)

end Sys2Proof.Machine
end

