-- ==== Sys2Proof/Machine/Ops.lean ====
section
/-! DEFINITION. The named operations over memory and registers, the sequential advance, the range check, the two
resets, and the parts of a tick around dispatch.

The core has no exception to take and no return from one (R180, R186, R187): a model fault ends the tick without a
next state (R183). -/

namespace Sys2Proof.Machine

/-- What a handler or a tick answers. -/
abbrev Result := Host.Outcome State Fault Refusal

/-! ### Memory -/

/-- The word at an address: the listed one, or else the hard-reset word. -/
def Memory.read : Memory → Nat → Int
  | [], a => bootWord a
  | (k, v) :: rest, a => if k = a then v else Memory.read rest a

/-- The list without the entries of one address. -/
def Memory.erase (m : Memory) (a : Nat) : Memory := m.filter fun c => c.1 != a

/-- The list with one entry put before the first higher address. -/
def Memory.insert : Memory → Nat → Int → Memory
  | [], a, v => [(a, v)]
  | c :: rest, a, v => if a < c.1 then (a, v) :: c :: rest else c :: Memory.insert rest a v

/-- The memory with a word written; writing the hard-reset word of an address unlists it. -/
def Memory.write (m : Memory) (a : Nat) (v : Int) : Memory :=
  if v = bootWord a then m.erase a else (m.erase a).insert a v

/-- Addresses strictly rising from `lo`, all below 100, and no entry equal to its hard-reset word. -/
def Memory.wfFrom : Nat → Memory → Bool
  | _, [] => true
  | lo, (k, v) :: rest =>
    decide (lo ≤ k) && decide (k < memWords) && decide (v ≠ bootWord k) && Memory.wfFrom (k + 1) rest

/-- The memory is in its canonical form, so equal memories are equal lists (log entry 2). -/
def Memory.wf (m : Memory) : Bool := Memory.wfFrom 0 m

/-! ### Registers -/

def State.setAcc (s : State) (v : Int) : State := { s with acc := v }

def State.setIp (s : State) (a : Addr) : State := { s with ip := a }

def State.setMem (s : State) (m : Memory) : State := { s with mem := m }

def State.setRs (s : State) (r : RunState) : State := { s with rs := r }

def State.setOutr (s : State) (o : Output) : State := { s with outr := o }

def State.setFaultRecord (s : State) (f : Option Fault) : State := { s with faultRecord := f }

/-- `MemRead(a, 1)` (R10). A read has no side effect (R46). -/
def State.readMem (s : State) (a : Addr) : Int := s.mem.read a.val

/-- `MemWrite(a, 1, v)` (R10). No word is write-protected (R48). -/
def State.writeMem (s : State) (a : Addr) (v : Int) : State := s.setMem (s.mem.write a.val v)

/-! ### Advance and range check -/

/-- The address after `a`, if there is one: 99 has none (R24, R88). -/
def nextAddr (a : Addr) : Option Addr := if h : a.val + 1 < 100 then some ⟨a.val + 1, h⟩ else none

/-- `adv()` (R88): IP moves on by one word; from 99 it is the fault IpOverflow. -/
def advance (s : State) : Result :=
  match nextAddr s.ip with
  | some a => .next (s.setIp a)
  | none => .fault .ipOverflow

/-- `chkACC(v)` (R11): the value goes on if it is in range, and otherwise it is the fault AccOverflow. -/
def withChecked (v : Int) (k : Int → Result) : Result := if accFits v then k v else .fault .accOverflow

/-! ### Resets -/

/-- `soft_reset()` (R202). -/
def softReset (s : State) : State := (s.setIp 0).setRs .running

/-- `hard_reset()` (R201): all five components from any prior state. It does not clear a fault record (R183), and it
does not change the machine's parameter. -/
def hardReset (s : State) : State :=
  { acc := 0, ip := 0, mem := [], rs := .running, outr := .blank, faultRecord := s.faultRecord, cfg := s.cfg }

/-! ### The tick around dispatch -/

/-- The run states in which a tick executes an instruction (R26, R80). -/
def RunState.executes : RunState → Bool
  | .running => true
  | .step => true
  | .paused => false
  | .halted => false

/-- `w := MemRead(IP, 1)` (R81), from the memory as it stands at this tick (R53). -/
def fetchWord (s : State) : Int := s.readMem s.ip

/-- The instruction the tick fetches, or why there is none (R81 to R83). -/
def fetchInstr (s : State) : Except DecodeError Instr := decode (fetchWord s)

/-- The fault a refused word raises (R83). -/
def faultOf : DecodeError → Fault
  | .noHandler w => .undecodableWord w

/-- The gate of a tick (R80): nothing happens unless RS is Running or Step. A recorded fault is permanent: the
model has no state to go on from (R183; log entry 3, DEDUCED). -/
def gated (s : State) (tick : Result) : Result :=
  match s.faultRecord with
  | some f => .fault f
  | none => if s.rs.executes then tick else .next s

/-- `if RS == Step then RS <- Paused`, on RS as it stands after dispatch (R86). -/
def endStep (s : State) : State := if s.rs = .step then s.setRs .paused else s

/-- The end of a tick after dispatch (R85). -/
def endTick : Result → Result
  | .next s => .next (endStep s)
  | .fault f => .fault f
  | .refused r => .refused r

/-- What `withFetchWord` needs besides the word, so that the next step runs it: a run state that executes and no
recorded fault (log entry 5, DESIGN CHOICE). -/
def State.armed (s : State) : State :=
  (s.setFaultRecord none).setRs (if s.rs.executes then s.rs else .running)

end Sys2Proof.Machine
end

