-- ==== Sys2Proof/Machine/Operands.lean ====
section
/-! DEFINITION. The four operand forms (R63): an address read, an address written, a branch target, two shift counts.
The fifth row of R63, an ignored operand, has no operation. The effective address is the operand itself (R63). -/

namespace Sys2Proof.Machine

/-- The word a CLA, ADD, SUB or OUT reads. -/
def readOperand (a : Addr) (s : State) : Int := s.readMem a

/-- The store of an STO. -/
def writeOperand (a : Addr) (v : Int) (s : State) : State := s.writeMem a v

/-- The transfer of a TAC or JMP to its absolute target (R145). -/
def branchTo (target : Addr) (s : State) : State := s.setIp target

/-- 10^k for a shift count (R10, R64). -/
def pow10 (k : Digit) : Int := 10 ^ k.val

end Sys2Proof.Machine
end

