-- ==== Sys2Proof/Machine/Arithmetic.lean ====
section
/-! DEFINITION. Arithmetic: ADD, SUB, SFT (R120 to R125). Sums and differences are exact and not reduced. -/

namespace Sys2Proof.Machine

/-- ACC takes a checked result, then IP advances (R11, R88). -/
def putChecked (v : Int) (s : State) : Result := withChecked v fun t => advance (s.setAcc t)

/-- ADD (R120). -/
def execAdd (a : Addr) (s : State) : Result := putChecked (s.acc + readOperand a s) s

/-- SUB (R121). -/
def execSub (a : Addr) (s : State) : Result := putChecked (s.acc - readOperand a s) s

/-- At most `rounds` rounds of SFT's loop `while |t| > 9999 do t := t tmod 10000` (R122). -/
def reduceRounds : Nat → Int → Int
  | 0, t => t
  | n + 1, t => if 9999 < |t| then reduceRounds n (t.tmod sftMod) else t

/-- SFT's reduction: "The reduction runs at most once" (R122, R124). -/
def sftReduce (t : Int) : Int := reduceRounds 1 t

/-- The right shift and the reduction of SFT, after the left shift has passed its check (R122). -/
def shiftRight (product : Int) (right : Digit) : Int := sftReduce (product.tdiv (pow10 right))

/-- SFT (R122): multiply, then divide toward zero, then reduce. -/
def execSft (left right : Digit) (s : State) : Result :=
  withChecked (s.acc * pow10 left) fun t => advance (s.setAcc (shiftRight t right))

end Sys2Proof.Machine
end

