-- ==== Sys2Proof/Machine/Flags.lean ====
section
/-! DEFINITION. The core has no flags and no condition codes (R28). What there is instead is TAC's condition, which
reads the sign of ACC when TAC executes. -/

namespace Sys2Proof.Machine

/-- `ACC < 0` (R28, R141): 0 is not negative (R123). -/
def accNegative (s : State) : Bool := decide (s.acc < 0)

end Sys2Proof.Machine
end

