-- ==== Sys2Proof/Machine/Control.lean ====
section
/-! DEFINITION. Control: opcode 0, TAC, JMP, HLT (R140 to R146), and the skip of a negative word (R82). -/

namespace Sys2Proof.Machine

/-- Opcode 0 (R140): nothing, or a plain advance when OP0_ADVANCE is true. -/
def execOp0 (_ignored : Addr) (s : State) : Result := if s.cfg.op0Advance then advance s else .next s

/-- TAC (R141). -/
def execTac (target : Addr) (s : State) : Result :=
  if accNegative s then .next (branchTo target s) else advance s

/-- The link word of a JMP at address `a`: IP + 801 (R143). -/
def linkWord (a : Addr) : Int := (a.val : Int) + linkBias

/-- JMP (R143): the link first, with the JMP's own address, then IP. -/
def execJmp (target : Addr) (s : State) : Result :=
  .next (branchTo target (s.writeMem linkAddr (linkWord s.ip)))

/-- HLT (R144): the soft reset, then Halted. -/
def execHlt (_ignored : Addr) (s : State) : Result := .next ((softReset s).setRs .halted)

/-- The skip of a negative word (R82): IP alone. -/
def execSkip (_w : Int) (s : State) : Result := advance s

end Sys2Proof.Machine
end

