-- ==== Sys2Proof/Machine/LoadStore.lean ====
section
/-! DEFINITION. Load, store and output: CLA, STO, OUT (R100 to R102). -/

namespace Sys2Proof.Machine

/-- CLA (R100). -/
def execCla (a : Addr) (s : State) : Result := advance (s.setAcc (readOperand a s))

/-- What STO stores: the low three digits of ACC, with its sign (R101). -/
def storedWord (acc : Int) : Int := acc.tmod stoMod

/-- STO (R101); ACC is unchanged. -/
def execSto (a : Addr) (s : State) : Result := advance (writeOperand a (storedWord s.acc) s)

/-- OUT (R102): a memory word, not the accumulator. -/
def execOut (a : Addr) (s : State) : Result := advance (s.setOutr (.val (readOperand a s)))

end Sys2Proof.Machine
end

