-- ==== Sys2Proof/Machine/Dispatch.lean ====
section
/-! DEFINITION. The dispatch of R84: the one match from an instruction to its handler. -/

namespace Sys2Proof.Machine

-- One arm per row of the opcode table (R65); gating, fetch and the end of a single step stand in Step.lean (R85).
def exec (i : Instr) (s : State) : Host.Outcome State Fault Refusal :=
  match i with
  | .op0 x => Sys2Proof.Machine.execOp0 x s
  | .cla a => Sys2Proof.Machine.execCla a s
  | .add a => Sys2Proof.Machine.execAdd a s
  | .tac a => Sys2Proof.Machine.execTac a s
  | .sft l r => Sys2Proof.Machine.execSft l r s
  | .out a => Sys2Proof.Machine.execOut a s
  | .sto a => Sys2Proof.Machine.execSto a s
  | .sub a => Sys2Proof.Machine.execSub a s
  | .jmp a => Sys2Proof.Machine.execJmp a s
  | .hlt x => Sys2Proof.Machine.execHlt x s
  | .skip w => Sys2Proof.Machine.execSkip w s

end Sys2Proof.Machine
end

