-- ==== Sys2Proof/Machine/Step.lean ====
section
/-! DEFINITION. One step of the machine is one tick, `execute_current()` (R80, R85). What the host does between two
ticks is in Lifecycle.lean (log entry 7, DESIGN CHOICE). -/

namespace Sys2Proof.Machine

/-- The tick: gate, fetch, decode, dispatch, end of a single step (R85). -/
def step (s : State) : Host.Outcome State Fault Refusal :=
  gated s
    (match fetchInstr s with
     | .ok i => endTick (exec i s)
     | .error e => .fault (faultOf e))

/-- The state with the word of a host's bit pattern where the next tick fetches (log entries 4 and 5). -/
def State.withFetchWord (s : State) (nbits w : Nat) : State :=
  s.armed.writeMem s.ip (tableWord nbits w)

end Sys2Proof.Machine
end

