-- ==== Sys2Proof/Machine/Lifecycle.lean ====
section
/-! DEFINITION. The lifecycle controller and the host's commands (R160 to R170), each one atomic transition. -/

namespace Sys2Proof.Machine

/-- `pause()` (R160). -/
def pause (s : State) : State := if s.rs = .running then s.setRs .paused else s

/-- `resume()` (R161). -/
def resume (s : State) : State := if s.rs = .paused then s.setRs .running else s

/-- `single_step_request()` (R162). -/
def singleStepRequest (s : State) : State :=
  if s.rs = .paused ∨ s.rs = .halted then s.setRs .step else s

/-- Cold construction (R200): a new machine with ACC = 0 and IP = 0, which then performs a hard reset. -/
def coldConstruct (cfg : Config) : State :=
  hardReset { acc := 0, ip := 0, mem := [], rs := .running, outr := .blank, faultRecord := none, cfg := cfg }

/-- The whole memory as a list of its 100 words, address 0 first (R55, R165). -/
def memoryImage (s : State) : List Int := (List.finRange 100).map s.readMem

/-- What a snapshot returns: the five components of R20 (R165). -/
structure Snapshot where
  acc : Int
  ip : Addr
  mem : List Int
  rs : RunState
  outr : Output
  deriving DecidableEq, Repr

/-- `snapshot` (R165). -/
def snapshot (s : State) : Snapshot :=
  { acc := s.acc, ip := s.ip, mem := memoryImage s, rs := s.rs, outr := s.outr }

/-- What a command answers the host (R163). -/
inductive Reply where
  /-- The command returns nothing. -/
  | none
  /-- `set_memory` wrote the word. -/
  | ok
  /-- `set_memory` changed nothing (R166). -/
  | rejected
  /-- The answer of `snapshot`. -/
  | shown (view : Snapshot)
  /-- No answer: a model fault is recorded and the model has no state to answer from (R183; log entry 3). The host of
  the spec cannot observe this (R31). -/
  | stuck
  deriving DecidableEq, Repr

/-- `set_memory(a, v)` (R166): legal in every run state; the host may ask for any address and value. -/
def setMemory (a v : Int) (s : State) : State × Reply :=
  if h : 0 ≤ a ∧ a ≤ 99 then
    if wordFits v then (s.writeMem ⟨a.toNat, by omega⟩ v, .ok) else (s, .rejected)
  else (s, .rejected)

/-- The host's commands (R163). -/
inductive Command where
  | snapshot
  | executeCurrent
  | pause
  | resume
  | singleStepRequest
  | setMemory (a v : Int)
  | softReset
  | hardReset
  deriving DecidableEq, Repr

/-- A tick as a command: a model fault is recorded for good, and the rest of the state is left as it stood before the
tick, which is not a claim about the hardware: no state after a fault is defined (R31, R183; log entry 3). -/
def executeCurrent (s : State) : State × Reply :=
  match step s with
  | .next t => (t, .none)
  | .fault f => (s.setFaultRecord (some f), .stuck)
  | .refused _ => (s, .stuck)

/-- The effect and the reply of a command on a machine without a recorded fault (R163). -/
def obey (c : Command) (s : State) : State × Reply :=
  match c with
  | .snapshot => (s, .shown (snapshot s))
  | .executeCurrent => executeCurrent s
  | .pause => (pause s, .none)
  | .resume => (resume s, .none)
  | .singleStepRequest => (singleStepRequest s, .none)
  | .setMemory a v => setMemory a v s
  | .softReset => (softReset s, .none)
  | .hardReset => (hardReset s, .none)

/-- One command of the host (R163, R164). Once a fault is recorded no command does anything (R183). -/
def hostCommand (c : Command) (s : State) : State × Reply :=
  match s.faultRecord with
  | some _ => (s, .stuck)
  | none => obey c s

/-- The state after a sequence of commands, first one first (R164). -/
def hostCommands : List Command → State → State
  | [], s => s
  | c :: rest, s => hostCommands rest (hostCommand c s).1

end Sys2Proof.Machine
end

