-- ==== Sys2Proof/Safety.lean ====
section
/-! DEFINITION. What claims about runs are stated in: the invariant of the state, which instructions advance IP, and
the end of a run. -/

namespace Sys2Proof.Safety

open Sys2Proof.Machine

/-- OUTR is blank or shows a memory word's value (R27). -/
def outputFits : Output → Bool
  | .blank => true
  | .val v => wordFits v

/-- The invariant of the state: memory in canonical form, every word -999 to 999 (R25), ACC in its range (R21), OUTR
a word (R27). IP stays within 0 to 99 by its type (R24; log entry 6, DEDUCED). -/
def StateInv (s : State) : Prop :=
  s.mem.wf = true ∧ (∀ a : Addr, wordFits (s.readMem a) = true) ∧ accFits s.acc = true ∧ outputFits s.outr = true

/-- The instruction calls `adv()` in this state (R88). -/
def advances (i : Instr) (s : State) : Bool :=
  match i with
  | .op0 _ => s.cfg.op0Advance
  | .cla _ => true
  | .add _ => true
  | .tac _ => decide (0 ≤ s.acc)
  | .sft _ _ => true
  | .out _ => true
  | .sto _ => true
  | .sub _ => true
  | .jmp _ => false
  | .hlt _ => false
  | .skip _ => true

/-- The values that `chkACC` checks when the instruction executes (R11, R182). -/
def checkedValue (i : Instr) (s : State) : Option Int :=
  match i with
  | .op0 _ => none
  | .cla _ => none
  | .add a => some (s.acc + s.readMem a)
  | .tac _ => none
  | .sft l _ => some (s.acc * 10 ^ l.val)
  | .out _ => none
  | .sto _ => none
  | .sub a => some (s.acc - s.readMem a)
  | .jmp _ => none
  | .hlt _ => none
  | .skip _ => none

/-- A run has ended: Halted with no model fault recorded (R169). -/
def Ended (s : State) : Prop := s.rs = .halted ∧ s.faultRecord = none

end Sys2Proof.Safety
end

