-- ==== Sys2Proof/Certificates/Slice0/Obligations.lean ====
section
/-! DEFINITION. The statements for the provers. Each docstring names the rule of spec/ it formalises. -/

open Sys2Proof Sys2Proof.Machine Sys2Proof.Safety

/-! ### Encoding -/

/-- One word per row of the opcode map, from the test vectors and the bootstrap image (95_test_vectors.md T8, T9, P1;
R65). -/
def Obligations.WordsOfEveryRowDecode : Prop :=
  decode 0 = .ok (.op0 0) ∧ decode 99 = .ok (.op0 99) ∧ decode 197 = .ok (.cla 97) ∧
    decode 298 = .ok (.add 98) ∧ decode 318 = .ok (.tac 18) ∧ decode 420 = .ok (.sft 2 0) ∧
    decode 595 = .ok (.out 95) ∧ decode 695 = .ok (.sto 95) ∧ decode 751 = .ok (.sub 51) ∧
    decode 850 = .ok (.jmp 50) ∧ decode 900 = .ok (.hlt 0) ∧ decode 999 = .ok (.hlt 99) ∧
    decode (-40) = .ok (.skip (-40))

/-- Decoding the word of a well-formed instruction gives the instruction back, with every operand (R65, R68; R61 for
the skip). -/
def Obligations.DecodeOfEncodeIsTheInstruction : Prop :=
  ∀ i : Instr, i.wellFormed = true → decode (encode i) = .ok i

/-- A decoded word is the word of the instruction it decodes to, and that instruction is well-formed, so no two words
stand for one instruction (R62, R68). -/
def Obligations.EncodeOfDecodeIsTheWord : Prop :=
  ∀ (w : Int) (i : Instr), decode w = .ok i → i.wellFormed = true ∧ encode i = w

/-- R68: the encoding function, and its inverse on every opcode and operand. -/
def Obligations.DecodeInvertsTheEncodingFunction : Prop :=
  (∀ (o : Digit) (a : Addr),
    encodeFields o a = 100 * (o.val : Int) + (a.val : Int) ∧ decode (encodeFields o a) = .ok (instrOf o a)) ∧
    ∀ l r : Digit,
      (shiftOperand l r).val = 10 * l.val + r.val ∧ instrOf 4 (shiftOperand l r) = .sft l r

/-- R62: the fields of the three-digit word d2 d1 d0, and the skip of a negative one. -/
def Obligations.FieldsOfAThreeDigitWord : Prop :=
  (∀ d2 d1 d0 : Digit, ∀ w : Int, w = 100 * (d2.val : Int) + 10 * (d1.val : Int) + (d0.val : Int) →
    opcodeField w = w.tdiv 100 ∧ opcodeField w = (d2.val : Int) ∧
      operandField w = w - opcodeField w * 100 ∧
      operandField w = 10 * (d1.val : Int) + (d0.val : Int) ∧ operandField w = w.tmod 100 ∧
      ∀ a : Addr, a.val = 10 * d1.val + d0.val → decode w = .ok (instrOf d2 a)) ∧
    (∀ w : Int, 0 ≤ w → w ≤ 999 →
      ∃ d2 d1 d0 : Digit, w = 100 * (d2.val : Int) + 10 * (d1.val : Int) + (d0.val : Int)) ∧
    ∀ w : Int, w < 0 → decode w = .ok (.skip w)

/-- R64: SFT's operand is the left count and the right count, one digit each. -/
def Obligations.ShiftCountsAreTheOperandDigits : Prop :=
  ∀ (a : Addr) (l r : Digit), (l.val : Int) = (a.val : Int).tdiv 10 → (r.val : Int) = (a.val : Int).tmod 10 →
    decode (400 + (a.val : Int)) = .ok (.sft l r)

/-- R65: the complete opcode map, and that every word 0 to 999 matches exactly one row. -/
def Obligations.TheOpcodeMapIsComplete : Prop :=
  (∀ a : Addr,
    decode (a.val : Int) = .ok (.op0 a) ∧ decode (100 + (a.val : Int)) = .ok (.cla a) ∧
      decode (200 + (a.val : Int)) = .ok (.add a) ∧ decode (300 + (a.val : Int)) = .ok (.tac a) ∧
      decode (500 + (a.val : Int)) = .ok (.out a) ∧ decode (600 + (a.val : Int)) = .ok (.sto a) ∧
      decode (700 + (a.val : Int)) = .ok (.sub a) ∧ decode (800 + (a.val : Int)) = .ok (.jmp a) ∧
      decode (900 + (a.val : Int)) = .ok (.hlt a)) ∧
    (∀ l r : Digit, decode (400 + 10 * (l.val : Int) + (r.val : Int)) = .ok (.sft l r)) ∧
    (∀ w : Int, 0 ≤ w → w ≤ 999 → ∃! p : Digit × Addr, w = 100 * (p.1.val : Int) + (p.2.val : Int)) ∧
    ∀ w : Int, w < 0 → decode w = .ok (.skip w)

/-- R67 and R83: no word up to 999 is illegal, and the fetch of a word over 999 is the fault UndecodableWord. -/
def Obligations.OnlyWordsOver999AreUndecodable : Prop :=
  (∀ w : Int, w < 0 → decode w = .ok (.skip w)) ∧
    (∀ w : Int, 0 ≤ w → w ≤ 999 →
      ∃ (o : Digit) (a : Addr), w = 100 * (o.val : Int) + (a.val : Int) ∧ decode w = .ok (instrOf o a)) ∧
    ∀ (w : Int) (s : State), 999 < w → s.faultRecord = none → s.rs = .running ∨ s.rs = .step →
      s.readMem s.ip = w → step s = .fault (.undecodableWord w)

/-! ### The tick -/

/-- R85: the whole tick. A step of a machine in Running or Step is `exec` of the instruction its word decodes to,
followed by the end of a single step; a word that does not decode is a fault; in Paused and Halted nothing happens. -/
def Obligations.StepRunsTheDecodedInstruction : Prop :=
  ∀ s : State, s.faultRecord = none →
    (s.rs = .running ∨ s.rs = .step → ∀ i : Instr, decode (s.readMem s.ip) = .ok i →
      step s =
        match exec i s with
        | .next t => .next (if t.rs = .step then { t with rs := .paused } else t)
        | .fault f => .fault f
        | .refused r => .refused r) ∧
      (s.rs = .running ∨ s.rs = .step → ∀ w : Int, decode (s.readMem s.ip) = .error (.noHandler w) →
        step s = .fault (.undecodableWord w)) ∧
      (s.rs = .paused ∨ s.rs = .halted → step s = .next s)

/-- R80: a tick in Paused or Halted leaves the state as it was. -/
def Obligations.TickIsANoOpUnlessRunningOrStep : Prop :=
  ∀ s : State, s.faultRecord = none → s.rs ≠ .running → s.rs ≠ .step → step s = .next s

/-- R86: after dispatch Step becomes Paused, but a HLT leaves Halted; a tick that began in Running stays in Running
unless it ran a HLT. -/
def Obligations.SingleStepEndsAfterOneTick : Prop :=
  ∀ (s t : State) (i : Instr), decode (s.readMem s.ip) = .ok i → step s = .next t →
    ((s.rs = .running ∨ s.rs = .step) → (∃ x, i = .hlt x) → t.rs = .halted) ∧
      (s.rs = .step → (∀ x, i ≠ .hlt x) → t.rs = .paused) ∧
      (s.rs = .running → (∀ x, i ≠ .hlt x) → t.rs = .running)

/-- R82: the skip of a negative word moves IP alone, in Step too it then ends the single step, and at 99 it is the
fault IpOverflow. -/
def Obligations.NegativeWordIsSkipped : Prop :=
  (∀ (w : Int) (s : State) (n : Addr), n.val = s.ip.val + 1 → exec (.skip w) s = .next { s with ip := n }) ∧
    (∀ (s : State) (n : Addr), s.faultRecord = none → s.readMem s.ip < 0 → n.val = s.ip.val + 1 →
      (s.rs = .running → step s = .next { s with ip := n }) ∧
        (s.rs = .step → step s = .next { s with ip := n, rs := .paused })) ∧
    ∀ s : State, s.faultRecord = none → s.readMem s.ip < 0 → s.rs = .running ∨ s.rs = .step → s.ip = 99 →
      step s = .fault .ipOverflow

/-- R169: during execution only a HLT brings the run state to Halted; the run has then ended, with IP at 0. -/
def Obligations.OnlyHaltEndsARun : Prop :=
  ∀ s t : State, step s = .next t → s.rs ≠ .halted → t.rs = .halted →
    (∃ x, decode (s.readMem s.ip) = .ok (.hlt x)) ∧ t.ip = 0 ∧ Ended t

/-- R53: the word stored by an STO or a JMP in one tick is the word a later tick fetches at that address, as long as
nothing has written memory in between. -/
def Obligations.FetchSeesTheLastStore : Prop :=
  ∀ s t u : State, step s = .next t → s.rs = .running ∨ s.rs = .step → u.mem = t.mem →
    (∀ a : Addr, decode (s.readMem s.ip) = .ok (.sto a) → u.ip = a → fetchWord u = s.acc.tmod 1000) ∧
      ∀ a : Addr, decode (s.readMem s.ip) = .ok (.jmp a) → u.ip = 99 → fetchWord u = (s.ip.val : Int) + 801

/-! ### Load, store, output -/

/-- R100: CLA. -/
def Obligations.ClaLoadsItsWord : Prop :=
  ∀ (s : State) (a : Addr),
    decode (100 + (a.val : Int)) = .ok (.cla a) ∧
      (∀ n : Addr, n.val = s.ip.val + 1 → exec (.cla a) s = .next { s with acc := s.readMem a, ip := n }) ∧
      (s.ip = 99 → exec (.cla a) s = .fault .ipOverflow)

/-- R101: STO stores ACC tmod 1000 at its operand; every other word, ACC and the rest of the state are unchanged. -/
def Obligations.StoStoresThreeDigitsWithTheSign : Prop :=
  ∀ (s : State) (a : Addr),
    decode (600 + (a.val : Int)) = .ok (.sto a) ∧
      (∀ n : Addr, n.val = s.ip.val + 1 →
        ∃ t : State, exec (.sto a) s = .next t ∧ t.readMem a = s.acc.tmod 1000 ∧
          (∀ b : Addr, b ≠ a → t.readMem b = s.readMem b) ∧ t.ip = n ∧ t.acc = s.acc ∧ t.rs = s.rs ∧
          t.outr = s.outr ∧ t.faultRecord = s.faultRecord ∧ t.cfg = s.cfg ∧
          (t.readMem a < 0 → decode (t.readMem a) = .ok (.skip (t.readMem a)))) ∧
      (s.ip = 99 → exec (.sto a) s = .fault .ipOverflow) ∧
      |s.acc.tmod 1000| ≤ 999 ∧ (0 ≤ s.acc → 0 ≤ s.acc.tmod 1000) ∧ (s.acc ≤ 0 → s.acc.tmod 1000 ≤ 0)

/-- R102: OUT puts a memory word, not ACC, into the output register. -/
def Obligations.OutShowsItsWord : Prop :=
  ∀ (s : State) (a : Addr),
    decode (500 + (a.val : Int)) = .ok (.out a) ∧
      (∀ n : Addr, n.val = s.ip.val + 1 →
        exec (.out a) s = .next { s with outr := .val (s.readMem a), ip := n }) ∧
      (s.ip = 99 → exec (.out a) s = .fault .ipOverflow)

/-- R103: CLA then STO at one address leaves memory as it was, with ACC the word there and IP advanced by 2. -/
def Obligations.ClaThenStoChangesNoWord : Prop :=
  ∀ (s : State) (a n : Addr), -999 ≤ s.readMem a → s.readMem a ≤ 999 → n.val = s.ip.val + 2 →
    ∃ t u : State, exec (.cla a) s = .next t ∧ exec (.sto a) t = .next u ∧
      (∀ b : Addr, u.readMem b = s.readMem b) ∧ u.acc = s.readMem a ∧ u.ip = n

/-! ### Arithmetic -/

/-- R120: ADD is exact and not reduced; out of range it is the fault AccOverflow, which comes before IpOverflow. -/
def Obligations.AddIsExactOrFaults : Prop :=
  ∀ (s : State) (a : Addr),
    decode (200 + (a.val : Int)) = .ok (.add a) ∧
      (-(2 ^ 63) ≤ s.acc + s.readMem a → s.acc + s.readMem a ≤ 2 ^ 63 - 1 →
        (∀ n : Addr, n.val = s.ip.val + 1 →
          exec (.add a) s = .next { s with acc := s.acc + s.readMem a, ip := n }) ∧
          (s.ip = 99 → exec (.add a) s = .fault .ipOverflow)) ∧
      (s.acc + s.readMem a < -(2 ^ 63) ∨ 2 ^ 63 - 1 < s.acc + s.readMem a →
        exec (.add a) s = .fault .accOverflow)

/-- R121: SUB is exact and not reduced; out of range it is the fault AccOverflow, which comes before IpOverflow. -/
def Obligations.SubIsExactOrFaults : Prop :=
  ∀ (s : State) (a : Addr),
    decode (700 + (a.val : Int)) = .ok (.sub a) ∧
      (-(2 ^ 63) ≤ s.acc - s.readMem a → s.acc - s.readMem a ≤ 2 ^ 63 - 1 →
        (∀ n : Addr, n.val = s.ip.val + 1 →
          exec (.sub a) s = .next { s with acc := s.acc - s.readMem a, ip := n }) ∧
          (s.ip = 99 → exec (.sub a) s = .fault .ipOverflow)) ∧
      (s.acc - s.readMem a < -(2 ^ 63) ∨ 2 ^ 63 - 1 < s.acc - s.readMem a →
        exec (.sub a) s = .fault .accOverflow)

/-- R122: SFT multiplies, then divides toward zero, then reduces at most once; the product is range-checked first. -/
def Obligations.SftMultipliesDividesReduces : Prop :=
  ∀ (s : State) (l r : Digit) (p t : Int), p = s.acc * 10 ^ l.val → t = p.tdiv (10 ^ r.val) →
    decode (400 + 10 * (l.val : Int) + (r.val : Int)) = .ok (.sft l r) ∧
      (-(2 ^ 63) ≤ p → p ≤ 2 ^ 63 - 1 →
        (∀ n : Addr, n.val = s.ip.val + 1 →
          (|t| ≤ 9999 → exec (.sft l r) s = .next { s with acc := t, ip := n }) ∧
            (9999 < |t| → exec (.sft l r) s = .next { s with acc := t.tmod 10000, ip := n })) ∧
          (s.ip = 99 → exec (.sft l r) s = .fault .ipOverflow)) ∧
      (p < -(2 ^ 63) ∨ 2 ^ 63 - 1 < p → exec (.sft l r) s = .fault .accOverflow) ∧
      |t.tmod 10000| ≤ 9999

/-- R124: the reduction loop ends after at most one round, and its result is `t tmod 10000`; so SFT's result is the
closed form. -/
def Obligations.ReductionLoopIsOneRemainder : Prop :=
  (∀ (t : Int) (n : Nat), reduceRounds (n + 1) t = t.tmod 10000 ∧ |reduceRounds (n + 1) t| ≤ 9999 ∧
    (|t| ≤ 9999 → reduceRounds n t = t ∧ t.tmod 10000 = t)) ∧
    ∀ (s t : State) (l r : Digit), exec (.sft l r) s = .next t →
      t.acc = ((s.acc * 10 ^ l.val).tdiv (10 ^ r.val)).tmod 10000

/-- R123 (width): an SFT that completes leaves ACC with at most four digits, and with the sign it had, or 0. -/
def Obligations.SftLeavesFourDigitsAndTheSign : Prop :=
  ∀ (s t : State) (l r : Digit), exec (.sft l r) s = .next t →
    |t.acc| ≤ 9999 ∧ (0 ≤ s.acc → 0 ≤ t.acc) ∧ (s.acc ≤ 0 → t.acc ≤ 0)

/-! ### Control -/

/-- R140: opcode 0 does nothing, or advances IP when OP0_ADVANCE is true. -/
def Obligations.OpcodeZeroFollowsItsParameter : Prop :=
  ∀ (s : State) (x : Addr),
    decode (x.val : Int) = .ok (.op0 x) ∧
      (s.cfg.op0Advance = false → exec (.op0 x) s = .next s) ∧
      (s.cfg.op0Advance = true → ∀ n : Addr, n.val = s.ip.val + 1 → exec (.op0 x) s = .next { s with ip := n }) ∧
      (s.cfg.op0Advance = true → s.ip = 99 → exec (.op0 x) s = .fault .ipOverflow) ∧
      (s.cfg.op0Advance = false → s.faultRecord = none → s.readMem s.ip = (x.val : Int) →
        (s.rs = .running → step s = .next s) ∧ (s.rs = .step → step s = .next { s with rs := .paused }))

/-- R208: with OP0_ADVANCE false, a word 0 to 99 at IP in Running re-executes forever: any number of ticks leaves the
state as it was. -/
def Obligations.OpcodeZeroLivelock : Prop :=
  ∀ (s : State) (n : Nat), s.cfg.op0Advance = false → s.faultRecord = none → s.rs = .running →
    0 ≤ s.readMem s.ip → s.readMem s.ip ≤ 99 → core.run n s = .next s

/-- R141: TAC branches exactly when ACC < 0, and only reads ACC. -/
def Obligations.TacBranchesOnlyOnNegative : Prop :=
  ∀ (s : State) (a : Addr),
    decode (300 + (a.val : Int)) = .ok (.tac a) ∧
      (s.acc < 0 → exec (.tac a) s = .next { s with ip := a }) ∧
      (0 ≤ s.acc → ∀ n : Addr, n.val = s.ip.val + 1 → exec (.tac a) s = .next { s with ip := n }) ∧
      (0 ≤ s.acc → s.ip = 99 → exec (.tac a) s = .fault .ipOverflow)

/-- R143: JMP writes the link IP + 801, with its own address, to word 99 and goes to its operand; nothing else
changes. The link is the word of JMP to the next address, and at 99 the word of HLT. -/
def Obligations.JmpLinksThroughWord99 : Prop :=
  ∀ (s : State) (a : Addr),
    decode (800 + (a.val : Int)) = .ok (.jmp a) ∧
      (∃ t : State, exec (.jmp a) s = .next t ∧ t.readMem 99 = (s.ip.val : Int) + 801 ∧
        (∀ b : Addr, b ≠ 99 → t.readMem b = s.readMem b) ∧ t.ip = a ∧ t.acc = s.acc ∧ t.rs = s.rs ∧
        t.outr = s.outr ∧ t.faultRecord = s.faultRecord ∧ t.cfg = s.cfg ∧
        (a = 99 → fetchWord t = (s.ip.val : Int) + 801)) ∧
      801 ≤ (s.ip.val : Int) + 801 ∧ (s.ip.val : Int) + 801 ≤ 900 ∧
      (∀ n : Addr, n.val = s.ip.val + 1 → decode ((s.ip.val : Int) + 801) = .ok (.jmp n)) ∧
      (s.ip = 99 → decode ((s.ip.val : Int) + 801) = .ok (.hlt 0))

/-- R144: HLT sets IP to 0 and RS to Halted, whatever its operand digits, in Step too; nothing else changes. -/
def Obligations.HltResetsIpAndHalts : Prop :=
  ∀ (s : State) (x : Addr),
    decode (900 + (x.val : Int)) = .ok (.hlt x) ∧
      exec (.hlt x) s = .next { s with ip := 0, rs := .halted } ∧
      (s.faultRecord = none → s.rs = .running ∨ s.rs = .step → s.readMem s.ip = 900 + (x.val : Int) →
        step s = .next { s with ip := 0, rs := .halted })

/-- R209: what each host command makes of a machine that a HLT has stopped. -/
def Obligations.AfterHaltRunsRestartAtZero : Prop :=
  ∀ (s : State) (x : Addr), ∃ t : State, exec (.hlt x) s = .next t ∧ t.ip = 0 ∧
    softReset t = { t with rs := .running } ∧ singleStepRequest t = { t with rs := .step } ∧ resume t = t

/-- R66: the operand digits of opcodes 0 and 9 change nothing. -/
def Obligations.IgnoredDigitsChangeNothing : Prop :=
  ∀ (s : State) (x y : Addr), exec (.op0 x) s = exec (.op0 y) s ∧ exec (.hlt x) s = exec (.hlt y) s

/-- R146: a `JMP 99` at address j does not return through an old link: it writes its own, and the next tick goes to
j + 1 and leaves 900 in word 99. -/
def Obligations.JmpToTheLinkCellComesBackToItself : Prop :=
  ∀ (s : State) (n : Addr), s.faultRecord = none → s.rs = .running → s.readMem s.ip = 899 →
    n.val = s.ip.val + 1 →
    ∃ t u : State, step s = .next t ∧ t.ip = 99 ∧ t.readMem 99 = (s.ip.val : Int) + 801 ∧
      step t = .next u ∧ u.ip = n ∧ u.readMem 99 = 900

/-- R146: a taken `TAC 99` returns through the link cell: with the link 801 + k there, the next tick goes to k + 1. -/
def Obligations.TakenTac99ReturnsThroughTheLink : Prop :=
  ∀ (s : State) (k n : Addr), s.faultRecord = none → s.rs = .running → s.readMem s.ip = 399 → s.acc < 0 →
    s.readMem 99 = (k.val : Int) + 801 → n.val = k.val + 1 →
    ∃ t u : State, step s = .next t ∧ t.ip = 99 ∧ step t = .next u ∧ u.ip = n

/-! ### Whole-machine rules -/

/-- R33, R42: an instruction that completes writes no word of memory but the operand of an STO and, for a JMP,
word 99. -/
def Obligations.OnlyStoAndJmpWriteMemory : Prop :=
  ∀ (i : Instr) (s t : State) (b : Addr), exec i s = .next t →
    (∀ a, i = .sto a → b ≠ a) → (∀ a, i = .jmp a → b ≠ 99) → t.readMem b = s.readMem b

/-- R33: an instruction that completes writes ACC only if it is CLA, ADD, SUB or SFT, OUTR only if it is OUT, and RS
only if it is HLT; it never writes the fault record or the parameter. -/
def Obligations.RegistersEachInstructionLeavesAlone : Prop :=
  ∀ (i : Instr) (s t : State), exec i s = .next t →
    ((∀ a, i ≠ .cla a) → (∀ a, i ≠ .add a) → (∀ a, i ≠ .sub a) → (∀ l r, i ≠ .sft l r) → t.acc = s.acc) ∧
      ((∀ a, i ≠ .out a) → t.outr = s.outr) ∧ ((∀ x, i ≠ .hlt x) → t.rs = s.rs) ∧
      t.faultRecord = s.faultRecord ∧ t.cfg = s.cfg

/-- R145: the four ways IP moves. -/
def Obligations.IpGoesToNextTargetZeroOrStays : Prop :=
  ∀ (i : Instr) (s t : State), exec i s = .next t →
    (advances i s = true ∧ t.ip.val = s.ip.val + 1) ∨
      (∃ a, i = .tac a ∧ s.acc < 0 ∧ t.ip = a) ∨ (∃ a, i = .jmp a ∧ t.ip = a) ∨
      (∃ x, i = .hlt x ∧ t.ip = 0) ∨ (∃ x, i = .op0 x ∧ s.cfg.op0Advance = false ∧ t.ip = s.ip)

/-- R182, R185: an instruction faults exactly when a checked result is out of range, or, that passed, when it advances
from 99. -/
def Obligations.InstructionsFaultExactlyHere : Prop :=
  ∀ (i : Instr) (s : State) (f : Fault), exec i s = .fault f ↔
    ((f = .accOverflow ∧ ∃ v, checkedValue i s = some v ∧ (v < -(2 ^ 63) ∨ 2 ^ 63 - 1 < v)) ∨
      (f = .ipOverflow ∧ s.ip = 99 ∧ advances i s = true ∧
        ∀ v, checkedValue i s = some v → -(2 ^ 63) ≤ v ∧ v ≤ 2 ^ 63 - 1))

/-- R84: every handler has a meaning, so no tick is refused. -/
def Obligations.NoTickIsRefused : Prop :=
  ∀ (s : State) (r : Refusal), step s ≠ .refused r

/-- R21, R25, R27: every tick keeps the invariant of the state. -/
def Obligations.TickKeepsTheInvariant : Prop :=
  ∀ s t : State, StateInv s → step s = .next t → StateInv t

/-- R25, R21: every command of the host keeps the invariant of the state. R183 defines no state after a tick that
faults; that the invariant holds there too rests on the model's choice to leave the other fields as they stood before
that tick (log entry 3, DESIGN CHOICE). -/
def Obligations.HostCommandKeepsTheInvariant : Prop :=
  ∀ (c : Command) (s : State), StateInv s → StateInv (hostCommand c s).1

/-- R32: the state after reset meets the invariant, for both values of the parameter. -/
def Obligations.ResetMeetsTheInvariant : Prop :=
  StateInv State.reset ∧ ∀ cfg : Config, StateInv (State.resetWith cfg)

/-- R25, R67: under the invariant no tick raises UndecodableWord. -/
def Obligations.EveryFetchedWordDecodes : Prop :=
  ∀ (s : State) (w : Int), StateInv s → s.faultRecord = none → step s ≠ .fault (.undecodableWord w)

/-- R25, R67: whatever sequence of commands the host gives a new machine, every word of memory stays in range and no
UndecodableWord is ever recorded. After a session in which a tick faulted, R183 defines no state; that the invariant
holds there too rests on the model's choice to leave the other fields as they stood (log entry 3, DESIGN CHOICE). -/
def Obligations.NoHostSessionReachesAnUndecodableWord : Prop :=
  ∀ (cfg : Config) (cs : List Command),
    StateInv (hostCommands cs (coldConstruct cfg)) ∧
      ∀ w : Int, (hostCommands cs (coldConstruct cfg)).faultRecord ≠ some (.undecodableWord w)

/-- R20, R165: the five components a snapshot shows are all the state there is: two machines with one parameter and
one fault record whose snapshots agree give the same reply to every command and agree again after it. -/
def Obligations.SnapshotDeterminesEveryAnswer : Prop :=
  ∀ (c : Command) (s t : State), s.cfg = t.cfg → s.faultRecord = t.faultRecord → snapshot s = snapshot t →
    (hostCommand c s).2 = (hostCommand c t).2 ∧
      snapshot (hostCommand c s).1 = snapshot (hostCommand c t).1 ∧
      (hostCommand c s).1.cfg = (hostCommand c t).1.cfg ∧
      (hostCommand c s).1.faultRecord = (hostCommand c t).1.faultRecord

/-! ### Lifecycle, resets and host commands -/

/-- R160, R163: pause, and the command of the host. -/
def Obligations.PauseStopsOnlyRunning : Prop :=
  ∀ s : State, (s.rs = .running → pause s = { s with rs := .paused }) ∧ (s.rs ≠ .running → pause s = s) ∧
    (s.faultRecord = none → hostCommand .pause s = (pause s, .none))

/-- R161, R163: resume, and the command of the host. -/
def Obligations.ResumeLeavesOnlyPaused : Prop :=
  ∀ s : State, (s.rs = .paused → resume s = { s with rs := .running }) ∧ (s.rs ≠ .paused → resume s = s) ∧
    (s.faultRecord = none → hostCommand .resume s = (resume s, .none))

/-- R162, R163: single_step_request, and the command of the host. -/
def Obligations.SingleStepRequestArmsPausedAndHalted : Prop :=
  ∀ s : State, (s.rs = .paused ∨ s.rs = .halted → singleStepRequest s = { s with rs := .step }) ∧
    (s.rs = .running ∨ s.rs = .step → singleStepRequest s = s) ∧
    (s.faultRecord = none → hostCommand .singleStepRequest s = (singleStepRequest s, .none))

/-- R168: the run state after each command, for every run state before it. The columns of an executing tick hold for a
tick with a next state. -/
def Obligations.RunStateTransitionTable : Prop :=
  ∀ s : State, s.faultRecord = none →
    (hostCommand .pause s).1.rs = (if s.rs = .running then .paused else s.rs) ∧
      (hostCommand .resume s).1.rs = (if s.rs = .paused then .running else s.rs) ∧
      (hostCommand .singleStepRequest s).1.rs = (if s.rs = .paused ∨ s.rs = .halted then .step else s.rs) ∧
      (hostCommand .softReset s).1.rs = .running ∧ (hostCommand .hardReset s).1.rs = .running ∧
      ((s.rs = .paused ∨ s.rs = .halted) → hostCommand .executeCurrent s = (s, .none)) ∧
      ∀ (t : State) (i : Instr), decode (s.readMem s.ip) = .ok i → step s = .next t →
        hostCommand .executeCurrent s = (t, .none) ∧
          ((s.rs = .running ∨ s.rs = .step) → (∃ x, i = .hlt x) → t.rs = .halted) ∧
          (s.rs = .running → (∀ x, i ≠ .hlt x) → t.rs = .running) ∧
          (s.rs = .step → (∀ x, i ≠ .hlt x) → t.rs = .paused)

/-- R166, R163: set_memory in every run state, and the command of the host with its reply. -/
def Obligations.SetMemoryWritesLegalWordsOnly : Prop :=
  (∀ (s : State) (a : Addr) (v : Int), -999 ≤ v → v ≤ 999 →
    ∃ t : State, setMemory (a.val : Int) v s = (t, .ok) ∧ t.readMem a = v ∧
      (∀ b : Addr, b ≠ a → t.readMem b = s.readMem b) ∧ t.acc = s.acc ∧ t.ip = s.ip ∧ t.rs = s.rs ∧
      t.outr = s.outr ∧ t.faultRecord = s.faultRecord ∧ t.cfg = s.cfg ∧
      (s.faultRecord = none → hostCommand (.setMemory (a.val : Int) v) s = (t, .ok))) ∧
    ∀ (s : State) (a v : Int), a < 0 ∨ 99 < a ∨ v < -999 ∨ 999 < v →
      setMemory a v s = (s, .rejected) ∧
        (s.faultRecord = none → hostCommand (.setMemory a v) s = (s, .rejected))

/-- R202, R163: soft reset, and the command of the host. -/
def Obligations.SoftResetMovesIpAndRunStateOnly : Prop :=
  ∀ s : State, softReset s = { s with ip := 0, rs := .running } ∧
    (s.faultRecord = none → hostCommand .softReset s = (softReset s, .none))

/-- R201, R163: hard reset from every prior state, and the command of the host. -/
def Obligations.HardResetRestoresTheImage : Prop :=
  ∀ s : State, (hardReset s).acc = 0 ∧ (hardReset s).ip = 0 ∧ (hardReset s).rs = .running ∧
    (hardReset s).outr = .blank ∧
    (hardReset s).readMem 0 = 197 ∧ (hardReset s).readMem 1 = 298 ∧ (hardReset s).readMem 2 = 420 ∧
    (hardReset s).readMem 3 = 695 ∧ (hardReset s).readMem 4 = 595 ∧ (hardReset s).readMem 5 = 900 ∧
    (hardReset s).readMem 97 = -40 ∧ (hardReset s).readMem 98 = 24 ∧ (hardReset s).readMem 99 = 12 ∧
    (∀ a : Addr, 6 ≤ a.val → a.val ≤ 96 → (hardReset s).readMem a = 0) ∧
    (s.faultRecord = none → hostCommand .hardReset s = (hardReset s, .none))

/-- R200: cold construction gives the hard-reset state. The last clause is the model's choice of the reference core for
`State.reset` (log entry 1), and the record is empty in a new machine (log entry 3). -/
def Obligations.ColdConstructionIsAHardReset : Prop :=
  (∀ (cfg : Config) (s : State), snapshot (coldConstruct cfg) = snapshot (hardReset s)) ∧
    (∀ cfg : Config, (coldConstruct cfg).faultRecord = none ∧ (coldConstruct cfg).cfg = cfg) ∧
    coldConstruct Config.reference = State.reset

/-- R165: a snapshot shows the five components and changes nothing, in every run state. -/
def Obligations.SnapshotShowsTheFiveComponents : Prop :=
  ∀ s : State, s.faultRecord = none →
    ∃ v : Snapshot, hostCommand .snapshot s = (s, .shown v) ∧ v.acc = s.acc ∧ v.ip = s.ip ∧ v.rs = s.rs ∧
      v.outr = s.outr ∧ v.mem.length = 100 ∧ ∀ a : Addr, v.mem[a.val]? = some (s.readMem a)

/-- R192: single_step_request then one tick executes exactly one instruction and leaves Paused, or Halted after a
HLT. -/
def Obligations.SingleStepRunsOneInstruction : Prop :=
  ∀ (s u : State) (i : Instr), s.faultRecord = none → s.rs = .paused ∨ s.rs = .halted →
    decode (s.readMem s.ip) = .ok i → exec i { s with rs := .step } = .next u →
    ((∃ x, i = .hlt x) → hostCommands [.singleStepRequest, .executeCurrent] s = u ∧ u.rs = .halted) ∧
      ((∀ x, i ≠ .hlt x) → hostCommands [.singleStepRequest, .executeCurrent] s = { u with rs := .paused })

/-- R183, R31: once a fault is recorded no command clears it, and the state is not an end of run. That a later tick is
that fault again and a later command changes nothing is the model's reading (log entry 3). -/
def Obligations.RecordedFaultIsPermanent : Prop :=
  ∀ (s : State) (f : Fault), s.faultRecord = some f →
    step s = .fault f ∧ (∀ cs : List Command, hostCommands cs s = s) ∧ ¬ Ended s

/-- R182 (recorded): a tick that raises a fault records its code; after IpOverflow IP still holds 99. -/
def Obligations.FaultingTickIsRecorded : Prop :=
  ∀ (s : State) (f : Fault), s.faultRecord = none → step s = .fault f →
    (hostCommand .executeCurrent s).1.faultRecord = some f ∧
      (f = .ipOverflow → (hostCommand .executeCurrent s).1.ip = 99) ∧
      (∀ w : Int, f = .undecodableWord w → s.readMem s.ip = w ∧ 999 < w)
end

