-- ==== Sys2Proof/Laws/Decode.lean ====
section
/-! SUPPORT. The fields of an encoded word (R62, R68). -/

namespace Sys2Proof

theorem opcodeField_encodeFields (o : Digit) (a : Addr) : opcodeField (encodeFields o a) = o.val := by
  unfold opcodeField encodeFields
  have := a.isLt
  rw [Int.tdiv_eq_ediv_of_nonneg (by omega)]
  omega

theorem operandField_encodeFields (o : Digit) (a : Addr) : operandField (encodeFields o a) = a.val := by
  rw [operandField, opcodeField_encodeFields]
  unfold encodeFields
  omega

/-- The two counts of a joined operand (R64, R68). -/
theorem shiftCounts_shiftOperand (l r : Digit) : shiftCounts (shiftOperand l r) = (l, r) := by
  simp only [shiftCounts, shiftOperand, Prod.mk.injEq, Fin.ext_iff]
  omega

/-- Joining the two counts of an operand gives it back. -/
theorem shiftOperand_shiftCounts (a : Addr) : shiftOperand (shiftCounts a).1 (shiftCounts a).2 = a := by
  simp only [shiftCounts, shiftOperand, Fin.ext_iff]
  omega

end Sys2Proof
end

