-- ==== Sys2Proof/Laws/State.lean ====
section
/-! SUPPORT. One lemma per field per update of the state, so that no later proof unfolds a record update. -/

namespace Sys2Proof.Machine

section setAcc

variable (s : State) (v : Int)

@[simp] theorem State.setAcc_acc : (s.setAcc v).acc = v := rfl

@[simp] theorem State.setAcc_ip : (s.setAcc v).ip = s.ip := rfl

@[simp] theorem State.setAcc_mem : (s.setAcc v).mem = s.mem := rfl

@[simp] theorem State.setAcc_rs : (s.setAcc v).rs = s.rs := rfl

@[simp] theorem State.setAcc_outr : (s.setAcc v).outr = s.outr := rfl

@[simp] theorem State.setAcc_faultRecord : (s.setAcc v).faultRecord = s.faultRecord := rfl

@[simp] theorem State.setAcc_cfg : (s.setAcc v).cfg = s.cfg := rfl

end setAcc

section setIp

variable (s : State) (a : Addr)

@[simp] theorem State.setIp_acc : (s.setIp a).acc = s.acc := rfl

@[simp] theorem State.setIp_ip : (s.setIp a).ip = a := rfl

@[simp] theorem State.setIp_mem : (s.setIp a).mem = s.mem := rfl

@[simp] theorem State.setIp_rs : (s.setIp a).rs = s.rs := rfl

@[simp] theorem State.setIp_outr : (s.setIp a).outr = s.outr := rfl

@[simp] theorem State.setIp_faultRecord : (s.setIp a).faultRecord = s.faultRecord := rfl

@[simp] theorem State.setIp_cfg : (s.setIp a).cfg = s.cfg := rfl

end setIp

section setMem

variable (s : State) (m : Memory)

@[simp] theorem State.setMem_acc : (s.setMem m).acc = s.acc := rfl

@[simp] theorem State.setMem_ip : (s.setMem m).ip = s.ip := rfl

@[simp] theorem State.setMem_mem : (s.setMem m).mem = m := rfl

@[simp] theorem State.setMem_rs : (s.setMem m).rs = s.rs := rfl

@[simp] theorem State.setMem_outr : (s.setMem m).outr = s.outr := rfl

@[simp] theorem State.setMem_faultRecord : (s.setMem m).faultRecord = s.faultRecord := rfl

@[simp] theorem State.setMem_cfg : (s.setMem m).cfg = s.cfg := rfl

end setMem

section setRs

variable (s : State) (r : RunState)

@[simp] theorem State.setRs_acc : (s.setRs r).acc = s.acc := rfl

@[simp] theorem State.setRs_ip : (s.setRs r).ip = s.ip := rfl

@[simp] theorem State.setRs_mem : (s.setRs r).mem = s.mem := rfl

@[simp] theorem State.setRs_rs : (s.setRs r).rs = r := rfl

@[simp] theorem State.setRs_outr : (s.setRs r).outr = s.outr := rfl

@[simp] theorem State.setRs_faultRecord : (s.setRs r).faultRecord = s.faultRecord := rfl

@[simp] theorem State.setRs_cfg : (s.setRs r).cfg = s.cfg := rfl

end setRs

section setOutr

variable (s : State) (o : Output)

@[simp] theorem State.setOutr_acc : (s.setOutr o).acc = s.acc := rfl

@[simp] theorem State.setOutr_ip : (s.setOutr o).ip = s.ip := rfl

@[simp] theorem State.setOutr_mem : (s.setOutr o).mem = s.mem := rfl

@[simp] theorem State.setOutr_rs : (s.setOutr o).rs = s.rs := rfl

@[simp] theorem State.setOutr_outr : (s.setOutr o).outr = o := rfl

@[simp] theorem State.setOutr_faultRecord : (s.setOutr o).faultRecord = s.faultRecord := rfl

@[simp] theorem State.setOutr_cfg : (s.setOutr o).cfg = s.cfg := rfl

end setOutr

section setFaultRecord

variable (s : State) (f : Option Fault)

@[simp] theorem State.setFaultRecord_acc : (s.setFaultRecord f).acc = s.acc := rfl

@[simp] theorem State.setFaultRecord_ip : (s.setFaultRecord f).ip = s.ip := rfl

@[simp] theorem State.setFaultRecord_mem : (s.setFaultRecord f).mem = s.mem := rfl

@[simp] theorem State.setFaultRecord_rs : (s.setFaultRecord f).rs = s.rs := rfl

@[simp] theorem State.setFaultRecord_outr : (s.setFaultRecord f).outr = s.outr := rfl

@[simp] theorem State.setFaultRecord_faultRecord : (s.setFaultRecord f).faultRecord = f := rfl

@[simp] theorem State.setFaultRecord_cfg : (s.setFaultRecord f).cfg = s.cfg := rfl

end setFaultRecord

section writeMem

variable (s : State) (a : Addr) (v : Int)

@[simp] theorem State.writeMem_acc : (s.writeMem a v).acc = s.acc := rfl

@[simp] theorem State.writeMem_ip : (s.writeMem a v).ip = s.ip := rfl

@[simp] theorem State.writeMem_mem : (s.writeMem a v).mem = s.mem.write a.val v := rfl

@[simp] theorem State.writeMem_rs : (s.writeMem a v).rs = s.rs := rfl

@[simp] theorem State.writeMem_outr : (s.writeMem a v).outr = s.outr := rfl

@[simp] theorem State.writeMem_faultRecord : (s.writeMem a v).faultRecord = s.faultRecord := rfl

@[simp] theorem State.writeMem_cfg : (s.writeMem a v).cfg = s.cfg := rfl

end writeMem

section softReset

variable (s : State)

@[simp] theorem softReset_acc : (softReset s).acc = s.acc := rfl

@[simp] theorem softReset_ip : (softReset s).ip = 0 := rfl

@[simp] theorem softReset_mem : (softReset s).mem = s.mem := rfl

@[simp] theorem softReset_rs : (softReset s).rs = RunState.running := rfl

@[simp] theorem softReset_outr : (softReset s).outr = s.outr := rfl

@[simp] theorem softReset_faultRecord : (softReset s).faultRecord = s.faultRecord := rfl

@[simp] theorem softReset_cfg : (softReset s).cfg = s.cfg := rfl

end softReset

section hardReset

variable (s : State)

@[simp] theorem hardReset_acc : (hardReset s).acc = 0 := rfl

@[simp] theorem hardReset_ip : (hardReset s).ip = 0 := rfl

@[simp] theorem hardReset_mem : (hardReset s).mem = [] := rfl

@[simp] theorem hardReset_rs : (hardReset s).rs = RunState.running := rfl

@[simp] theorem hardReset_outr : (hardReset s).outr = Output.blank := rfl

@[simp] theorem hardReset_faultRecord : (hardReset s).faultRecord = s.faultRecord := rfl

@[simp] theorem hardReset_cfg : (hardReset s).cfg = s.cfg := rfl

end hardReset

section endStep

variable (s : State)

@[simp] theorem endStep_acc : (endStep s).acc = s.acc := by unfold endStep; split <;> rfl

@[simp] theorem endStep_ip : (endStep s).ip = s.ip := by unfold endStep; split <;> rfl

@[simp] theorem endStep_mem : (endStep s).mem = s.mem := by unfold endStep; split <;> rfl

/-- R86: Step becomes Paused, every other run state stays. -/
theorem endStep_rs : (endStep s).rs = if s.rs = .step then .paused else s.rs := by
  unfold endStep; split <;> simp [*]

@[simp] theorem endStep_outr : (endStep s).outr = s.outr := by unfold endStep; split <;> rfl

@[simp] theorem endStep_faultRecord : (endStep s).faultRecord = s.faultRecord := by unfold endStep; split <;> rfl

@[simp] theorem endStep_cfg : (endStep s).cfg = s.cfg := by unfold endStep; split <;> rfl

end endStep

section reading

variable (s : State) (b : Addr)

@[simp] theorem readMem_setAcc (v : Int) : (s.setAcc v).readMem b = s.readMem b := rfl

@[simp] theorem readMem_setIp (a : Addr) : (s.setIp a).readMem b = s.readMem b := rfl

@[simp] theorem readMem_setRs (r : RunState) : (s.setRs r).readMem b = s.readMem b := rfl

@[simp] theorem readMem_setOutr (o : Output) : (s.setOutr o).readMem b = s.readMem b := rfl

@[simp] theorem readMem_setFaultRecord (f : Option Fault) : (s.setFaultRecord f).readMem b = s.readMem b := rfl

@[simp] theorem readMem_softReset : (softReset s).readMem b = s.readMem b := rfl

@[simp] theorem readMem_hardReset : (hardReset s).readMem b = bootWord b.val := rfl

@[simp] theorem readMem_endStep : (endStep s).readMem b = s.readMem b := by simp [State.readMem]

/-- Two states with one memory read alike. -/
theorem readMem_congr {s t : State} (h : t.mem = s.mem) : t.readMem b = s.readMem b := by
  simp [State.readMem, h]

end reading

end Sys2Proof.Machine
end

