-- ==== Sys2Proof/Laws/Memory.lean ====
section
/-! SUPPORT. The laws of memory: a read after a write, and the canonical form that every memory operation keeps. -/

namespace Sys2Proof.Machine

theorem Memory.read_erase_same (m : Memory) (a : Nat) : (m.erase a).read a = bootWord a := by
  induction m with
  | nil => rfl
  | cons c rest ih =>
    obtain ⟨k, v⟩ := c
    by_cases h : k = a <;> simp_all [Memory.erase, Memory.read]

theorem Memory.read_erase_other (m : Memory) {a b : Nat} (h : b ≠ a) : (m.erase a).read b = m.read b := by
  induction m with
  | nil => rfl
  | cons c rest ih =>
    obtain ⟨k, v⟩ := c
    by_cases hk : k = a
    · have hb : k ≠ b := fun e => h (e.symm.trans hk)
      simpa [Memory.erase, Memory.read, hk, hk ▸ hb] using ih
    · have hkeep : Memory.erase ((k, v) :: rest) a = (k, v) :: Memory.erase rest a := by
        simp [Memory.erase, hk]
      rw [hkeep]
      by_cases hb : k = b <;> simp [Memory.read, hb, ih]

theorem Memory.not_mem_erase (m : Memory) (a : Nat) : ∀ c ∈ m.erase a, c.1 ≠ a := by
  intro c hc
  simpa using (List.mem_filter.mp hc).2

theorem Memory.read_insert_same (m : Memory) (a : Nat) (v : Int) (h : ∀ c ∈ m, c.1 ≠ a) :
    (m.insert a v).read a = v := by
  induction m with
  | nil => simp [Memory.insert, Memory.read]
  | cons c rest ih =>
    have hc : c.1 ≠ a := h c (by simp)
    have hrest := ih fun d hd => h d (by simp [hd])
    by_cases hlt : a < c.1 <;> simp [Memory.insert, hlt, Memory.read, hc, hrest]

theorem Memory.read_insert_other (m : Memory) {a b : Nat} (v : Int) (h : b ≠ a) :
    (m.insert a v).read b = m.read b := by
  induction m with
  | nil => simp [Memory.insert, Memory.read, Ne.symm h]
  | cons c rest ih =>
    by_cases hlt : a < c.1 <;> simp [Memory.insert, hlt, Memory.read, Ne.symm h, ih]

/-- A read after a write to the same address gives the word written (R50). -/
@[simp] theorem Memory.read_write_same (m : Memory) (a : Nat) (v : Int) : (m.write a v).read a = v := by
  unfold Memory.write
  split
  · next h => rw [Memory.read_erase_same, h]
  · exact Memory.read_insert_same _ _ _ (Memory.not_mem_erase m a)

/-- A write leaves every other address alone. -/
theorem Memory.read_write_other (m : Memory) {a b : Nat} (v : Int) (h : b ≠ a) :
    (m.write a v).read b = m.read b := by
  unfold Memory.write
  split
  · exact Memory.read_erase_other m h
  · rw [Memory.read_insert_other _ _ h, Memory.read_erase_other m h]

theorem Memory.wfFrom_cons (lo k : Nat) (v : Int) (m : Memory) :
    Memory.wfFrom lo ((k, v) :: m) = true ↔
      lo ≤ k ∧ k < memWords ∧ v ≠ bootWord k ∧ Memory.wfFrom (k + 1) m = true := by
  simp [Memory.wfFrom, and_assoc]

/-- A canonical list from some address on is one from every lower address on. -/
theorem Memory.wfFrom_mono {lo lo' : Nat} {m : Memory} (hle : lo' ≤ lo) (h : Memory.wfFrom lo m = true) :
    Memory.wfFrom lo' m = true := by
  cases m with
  | nil => rfl
  | cons c rest =>
    obtain ⟨k, v⟩ := c
    rw [Memory.wfFrom_cons] at h ⊢
    exact ⟨hle.trans h.1, h.2⟩

theorem Memory.wfFrom_erase {lo : Nat} {m : Memory} (a : Nat) (h : Memory.wfFrom lo m = true) :
    Memory.wfFrom lo (m.erase a) = true := by
  induction m generalizing lo with
  | nil => rfl
  | cons c rest ih =>
    obtain ⟨k, v⟩ := c
    rw [Memory.wfFrom_cons] at h
    by_cases hk : k = a
    · have hdrop : Memory.erase ((k, v) :: rest) a = Memory.erase rest a := by simp [Memory.erase, hk]
      rw [hdrop]
      exact Memory.wfFrom_mono (by omega) (ih h.2.2.2)
    · have hkeep : Memory.erase ((k, v) :: rest) a = (k, v) :: Memory.erase rest a := by
        simp [Memory.erase, hk]
      rw [hkeep, Memory.wfFrom_cons]
      exact ⟨h.1, h.2.1, h.2.2.1, ih h.2.2.2⟩

theorem Memory.wfFrom_insert {lo a : Nat} {v : Int} {m : Memory} (hlo : lo ≤ a) (ha : a < memWords)
    (hv : v ≠ bootWord a) (hm : ∀ c ∈ m, c.1 ≠ a) (h : Memory.wfFrom lo m = true) :
    Memory.wfFrom lo (m.insert a v) = true := by
  induction m generalizing lo with
  | nil => simp [Memory.insert, Memory.wfFrom, hlo, ha, hv]
  | cons c rest ih =>
    obtain ⟨k, w⟩ := c
    have hk : k ≠ a := hm (k, w) (by simp)
    rw [Memory.wfFrom_cons] at h
    by_cases hlt : a < k
    · simp only [Memory.insert, hlt, if_true, Memory.wfFrom_cons]
      exact ⟨hlo, ha, hv, hlt, h.2⟩
    · simp only [Memory.insert, hlt, if_false, Memory.wfFrom_cons]
      exact ⟨h.1, h.2.1, h.2.2.1,
        ih (by omega) (fun d hd => hm d (by simp [hd])) h.2.2.2⟩

/-- A write to an existing address keeps the canonical form. -/
theorem Memory.wf_write {m : Memory} {a : Nat} (v : Int) (ha : a < memWords) (h : m.wf = true) :
    (m.write a v).wf = true := by
  unfold Memory.write Memory.wf
  split
  · exact Memory.wfFrom_erase a h
  · next hv =>
    exact Memory.wfFrom_insert (Nat.zero_le a) ha hv (Memory.not_mem_erase m a) (Memory.wfFrom_erase a h)

/-- The memory after reset is in canonical form. -/
theorem State.reset_mem_wf (cfg : Config) : (State.resetWith cfg).mem.wf = true := rfl

/-- Below its first address a canonical list reads as the hard-reset image. -/
theorem Memory.read_below {lo a : Nat} {m : Memory} (h : Memory.wfFrom lo m = true) (ha : a < lo) :
    m.read a = bootWord a := by
  induction m generalizing lo with
  | nil => rfl
  | cons c rest ih =>
    obtain ⟨k, v⟩ := c
    rw [Memory.wfFrom_cons] at h
    have hk : k ≠ a := by omega
    simpa [Memory.read, hk] using ih h.2.2.2 (by omega)

/-- The state's read after its write to the same address. -/
@[simp] theorem readMem_writeMem_same (s : State) (a : Addr) (v : Int) : (s.writeMem a v).readMem a = v := by
  simp [State.readMem]

/-- The state's read after its write to another address. -/
theorem readMem_writeMem_other (s : State) {a b : Addr} (v : Int) (h : b ≠ a) :
    (s.writeMem a v).readMem b = s.readMem b :=
  Memory.read_write_other s.mem v fun e => h (Fin.ext e)

/-- The state's write keeps the canonical form. -/
theorem writeMem_wf {s : State} (a : Addr) (v : Int) (h : s.mem.wf = true) : (s.writeMem a v).mem.wf = true :=
  Memory.wf_write v a.isLt h

end Sys2Proof.Machine
end

