-- ==== Sys2Proof/Laws/Ops.lean ====
section
/-! SUPPORT. One lemma per shared operation, saying all it can do. -/

namespace Sys2Proof.Machine

/-! ### Advance -/

/-- The next address is one more, and only 99 has none (R88). -/
theorem nextAddr_eq_some {a n : Addr} : nextAddr a = some n ↔ n.val = a.val + 1 := by
  unfold nextAddr
  split
  · simp only [Option.some.injEq, Fin.ext_iff]; omega
  · have := n.isLt
    simp only [reduceCtorEq, false_iff]; omega

theorem nextAddr_eq_none {a : Addr} : nextAddr a = none ↔ a = 99 := by
  unfold nextAddr
  have := a.isLt
  split
  · simp only [reduceCtorEq, Fin.ext_iff, false_iff]
    show ¬ a.val = 99
    omega
  · simp only [Fin.ext_iff, true_iff]
    show a.val = 99
    omega

/-- `adv()` below address 99. -/
theorem advance_next {s : State} {n : Addr} (h : n.val = s.ip.val + 1) : advance s = .next (s.setIp n) := by
  simp [advance, nextAddr_eq_some.mpr h]

/-- `adv()` at address 99. -/
theorem advance_fault {s : State} (h : s.ip = 99) : advance s = .fault .ipOverflow := by
  simp [advance, nextAddr_eq_none.mpr h]

/-- All that `adv()` can do. -/
theorem advance_cases (s : State) :
    (∃ n : Addr, n.val = s.ip.val + 1 ∧ advance s = .next (s.setIp n)) ∨
      (s.ip = 99 ∧ advance s = .fault .ipOverflow) := by
  cases h : nextAddr s.ip with
  | some n => exact .inl ⟨n, nextAddr_eq_some.mp h, advance_next (nextAddr_eq_some.mp h)⟩
  | none => exact .inr ⟨nextAddr_eq_none.mp h, advance_fault (nextAddr_eq_none.mp h)⟩

/-- `adv()` changes nothing but IP. -/
theorem advance_eq_next {s t : State} (h : advance s = .next t) :
    ∃ n : Addr, n.val = s.ip.val + 1 ∧ t = s.setIp n := by
  obtain ⟨n, hn, e⟩ | ⟨-, e⟩ := advance_cases s
  · exact ⟨n, hn, by rw [e] at h; cases h; rfl⟩
  · rw [e] at h; cases h

/-! ### Ranges -/

theorem wordFits_iff {v : Int} : wordFits v = true ↔ -999 ≤ v ∧ v ≤ 999 := by
  unfold wordFits wordMax
  exact decide_eq_true_iff

theorem accFits_iff {v : Int} : accFits v = true ↔ -(2 ^ 63) ≤ v ∧ v ≤ 2 ^ 63 - 1 := by
  unfold accFits accMin accMax
  exact decide_eq_true_iff

/-- Every word is in the accumulator's range. -/
theorem accFits_of_wordFits {v : Int} (h : wordFits v = true) : accFits v = true := by
  rw [wordFits_iff] at h
  rw [accFits_iff]
  omega

theorem bootWord_fits (a : Addr) : wordFits (bootWord a.val) = true := by
  revert a; decide

/-- A value in range passes the check. -/
theorem withChecked_pass {v : Int} {k : Int → Result} (h : accFits v = true) : withChecked v k = k v := by
  simp [withChecked, h]

/-- A value out of range is the fault AccOverflow. -/
theorem withChecked_fail {v : Int} {k : Int → Result} (h : accFits v = false) :
    withChecked v k = .fault .accOverflow := by
  simp [withChecked, h]

/-- A check that answers a next state was passed. -/
theorem withChecked_eq_next {v : Int} {k : Int → Result} {t : State} (h : withChecked v k = .next t) :
    accFits v = true ∧ k v = .next t := by
  unfold withChecked at h
  split at h
  · next hv => exact ⟨hv, h⟩
  · cases h

/-! ### Conditions and powers -/

theorem accNegative_iff {s : State} : accNegative s = true ↔ s.acc < 0 := by
  unfold accNegative
  exact decide_eq_true_iff

theorem pow10_pos (k : Digit) : 0 < pow10 k := by
  unfold pow10
  positivity

/-! ### The tick -/

theorem gated_executes {s : State} {r : Result} (hf : s.faultRecord = none) (hr : s.rs.executes = true) :
    gated s r = r := by
  simp [gated, hf, hr]

theorem gated_idle {s : State} {r : Result} (hf : s.faultRecord = none) (hr : s.rs.executes = false) :
    gated s r = .next s := by
  simp [gated, hf, hr]

theorem gated_faulted {s : State} {r : Result} {f : Fault} (hf : s.faultRecord = some f) :
    gated s r = .fault f := by
  simp [gated, hf]

theorem RunState.executes_iff {r : RunState} : r.executes = true ↔ r = .running ∨ r = .step := by
  cases r <;> simp [RunState.executes]

theorem endTick_eq_next {r : Result} {t : State} (h : endTick r = .next t) :
    ∃ u, r = .next u ∧ t = endStep u := by
  cases r with
  | next u => exact ⟨u, rfl, by cases h; rfl⟩
  | fault f => cases h
  | refused f => cases h

/-- All that a tick with a next state can be: an idle tick, or one executed instruction and the end of its step. -/
theorem step_eq_next {s t : State} (h : step s = .next t) :
    s.faultRecord = none ∧
      ((s.rs.executes = false ∧ t = s) ∨
        (s.rs.executes = true ∧ ∃ i u, fetchInstr s = .ok i ∧ exec i s = .next u ∧ t = endStep u)) := by
  unfold step at h
  cases hf : s.faultRecord with
  | some f => rw [gated_faulted hf] at h; cases h
  | none =>
    refine ⟨rfl, ?_⟩
    cases hr : s.rs.executes with
    | false => rw [gated_idle hf hr] at h; cases h; exact .inl ⟨rfl, rfl⟩
    | true =>
      rw [gated_executes hf hr] at h
      cases hi : fetchInstr s with
      | ok i =>
        rw [hi] at h
        obtain ⟨u, hu, rfl⟩ := endTick_eq_next h
        exact .inr ⟨rfl, i, u, rfl, hu, rfl⟩
      | error e => rw [hi] at h; cases h

end Sys2Proof.Machine
end

