-- ==== Sys2Proof/Laws/HostPort.lean ====
section
/-! SUPPORT. What the host's commands can do, said once (R163, R183). -/

namespace Sys2Proof.Machine

/-- Without a recorded fault a command has the effect of its rule. -/
theorem hostCommand_obey {c : Command} {s : State} (h : s.faultRecord = none) : hostCommand c s = obey c s := by
  simp [hostCommand, h]

/-- With one, nothing happens. -/
theorem hostCommand_stuck {c : Command} {s : State} {f : Fault} (h : s.faultRecord = some f) :
    hostCommand c s = (s, .stuck) := by
  simp [hostCommand, h]

@[simp] theorem hostCommands_nil (s : State) : hostCommands [] s = s := rfl

@[simp] theorem hostCommands_cons (c : Command) (cs : List Command) (s : State) :
    hostCommands (c :: cs) s = hostCommands cs (hostCommand c s).1 := rfl

/-- A tick with a next state, as a command. -/
theorem executeCurrent_next {s t : State} (h : step s = .next t) : executeCurrent s = (t, .none) := by
  simp [executeCurrent, h]

/-- A tick that faults, as a command. -/
theorem executeCurrent_fault {s : State} {f : Fault} (h : step s = .fault f) :
    executeCurrent s = (s.setFaultRecord (some f), .stuck) := by
  simp [executeCurrent, h]

/-- Two memory images are equal exactly when every word reads alike. -/
theorem memoryImage_eq_iff {s t : State} :
    memoryImage s = memoryImage t ↔ ∀ a : Addr, s.readMem a = t.readMem a := by
  simp [memoryImage, List.map_inj_left]

/-- `set_memory` of a legal address and value is the write (R166). -/
theorem setMemory_legal (s : State) (a : Addr) {v : Int} (h : wordFits v = true) :
    setMemory (a.val : Int) v s = (s.writeMem a v, .ok) := by
  have ha : (a.val : Int) ≤ 99 := by omega
  simp [setMemory, h, ha]

end Sys2Proof.Machine
end

