-- ==== Sys2Proof/Laws/PerInstr.lean ====
section
/-! SUPPORT. The per-instruction family EncodeRange: the word of an instruction lies in its row of the opcode map
(R65). -/

namespace Sys2Proof.Laws.EncodeRange

/-- The opcode of the row a constructor stands for; the skip has none (R65). -/
def opcode? : Instr → Option Digit
  | .op0 _ => some 0
  | .cla _ => some 1
  | .add _ => some 2
  | .tac _ => some 3
  | .sft _ _ => some 4
  | .out _ => some 5
  | .sto _ => some 6
  | .sub _ => some 7
  | .jmp _ => some 8
  | .hlt _ => some 9
  | .skip _ => none

/-- A well-formed instruction's word lies in its row's range, and the skip's words are negative. -/
def Statement (i : Instr) : Prop :=
  i.wellFormed = true →
    match opcode? i with
    | some o => 100 * (o.val : Int) ≤ encode i ∧ encode i ≤ 100 * (o.val : Int) + 99
    | none => encode i < 0

theorem encodeFields_range (o : Digit) (a : Addr) :
    100 * (o.val : Int) ≤ encodeFields o a ∧ encodeFields o a ≤ 100 * (o.val : Int) + 99 := by
  unfold encodeFields
  omega

theorem op0 (ignored : Addr) : Statement (.op0 ignored) := fun _ => encodeFields_range 0 ignored

theorem cla (a : Addr) : Statement (.cla a) := fun _ => encodeFields_range 1 a

theorem add (a : Addr) : Statement (.add a) := fun _ => encodeFields_range 2 a

theorem tac (target : Addr) : Statement (.tac target) := fun _ => encodeFields_range 3 target

theorem sft (left right : Digit) : Statement (.sft left right) :=
  fun _ => encodeFields_range 4 (shiftOperand left right)

theorem out (a : Addr) : Statement (.out a) := fun _ => encodeFields_range 5 a

theorem sto (a : Addr) : Statement (.sto a) := fun _ => encodeFields_range 6 a

theorem sub (a : Addr) : Statement (.sub a) := fun _ => encodeFields_range 7 a

theorem jmp (target : Addr) : Statement (.jmp target) := fun _ => encodeFields_range 8 target

theorem hlt (ignored : Addr) : Statement (.hlt ignored) := fun _ => encodeFields_range 9 ignored

theorem skip (w : Int) : Statement (.skip w) := fun h => by
  simpa [Instr.wellFormed, opcode?, encode] using h

end Sys2Proof.Laws.EncodeRange
end

