-- ==== Sys2Proof/Tests/Slice0.lean ====
section
/-! SUPPORT. The model's own tests. Expected results are those of spec/95_test_vectors.md (part and row named in each
docstring) or worked by hand from the rules; the second half shows, for each statement with hypotheses, a state and
operands that meet them, one for each clause. -/

namespace Sys2Proof.Tests

open Sys2Proof.Machine Sys2Proof.Safety

/-! ### Small states -/

/-- The reset state with IP at `ip`, the word `w` there, and ACC at `acc`. -/
def at_ (ip : Addr) (w acc : Int) : State := ((State.reset.writeMem ip w).setIp ip).setAcc acc

/-- The same core built with OP0_ADVANCE = true. -/
def advancing (s : State) : State := { s with cfg := { op0Advance := true } }

/-- A field of the next state, if there is one. -/
def seen {α : Type} (f : State → α) : Result → Option α
  | .next s => some (f s)
  | _ => none

/-- The fault, if there is one. -/
def faultIn : Result → Option Fault
  | .fault f => some f
  | _ => none

/-! ### Well-formedness -/

theorem test_wellFormed_refuses_skip_of_zero : (Instr.skip 0).wellFormed = false := by decide

theorem test_wellFormed_refuses_skip_of_an_instruction_word : (Instr.skip 197).wellFormed = false := by decide

theorem test_wellFormed_accepts_skip_below_999 : (Instr.skip (-1000)).wellFormed = true := by decide

/-! ### Decoding: each word written out from R62, R64 and R65 -/

/-- R65: 0xx. T8. -/
theorem test_decode_op0 : decode 99 = .ok (.op0 99) := by decide

/-- R62, C1: the hard-reset word of address 99 is opcode 0 with operand 12 (log entry 9). -/
theorem test_decode_op0_12 : decode 12 = .ok (.op0 12) := by decide

/-- R65: 1aa, P1 word 00. -/
theorem test_decode_cla : decode 197 = .ok (.cla 97) := by decide

/-- R65: 2aa, P1 word 01. -/
theorem test_decode_add : decode 298 = .ok (.add 98) := by decide

/-- R65: 3aa, 2.4 TAC 18. -/
theorem test_decode_tac : decode 318 = .ok (.tac 18) := by decide

/-- R64: "SFT word 420 gives left = 2, right = 0". -/
theorem test_decode_sft : decode 420 = .ok (.sft 2 0) := by decide

/-- R64: 413 has left = 1, right = 3 (H13). -/
theorem test_decode_sft_both : decode 413 = .ok (.sft 1 3) := by decide

/-- R65: 5aa, P1 word 04. -/
theorem test_decode_out : decode 595 = .ok (.out 95) := by decide

/-- R65: 6aa, P1 word 03. -/
theorem test_decode_sto : decode 695 = .ok (.sto 95) := by decide

/-- R65: 7aa, P2 word 04. -/
theorem test_decode_sub : decode 751 = .ok (.sub 51) := by decide

/-- R65: 8aa, S8. -/
theorem test_decode_jmp : decode 850 = .ok (.jmp 50) := by decide

/-- R65: 9xx, T8. -/
theorem test_decode_hlt : decode 999 = .ok (.hlt 99) := by decide

/-- R61: a negative word, T2. -/
theorem test_decode_skip : decode (-999) = .ok (.skip (-999)) := by decide

/-- R67: the least word without a handler. -/
theorem test_decode_refuses_1000 : decode 1000 = .error (.noHandler 1000) := by decide

/-- R67: 1234, T7. -/
theorem test_decode_refuses_1234 : decode 1234 = .error (.noHandler 1234) := by decide

/-- T9: encode(8, 5), encode(3, 0), encode(6, 95). -/
theorem test_encode_rows : encode (.jmp 5) = 805 ∧ encode (.tac 0) = 300 ∧ encode (.sto 95) = 695 := by decide

/-- R68: for SFT, a = 10*left + right. -/
theorem test_encode_sft : encode (.sft 2 0) = 420 := by decide

/-- A pattern of 16 bits, and the pattern of -1 in 16 bits (log entry 4). -/
theorem test_decodeTableWord :
    decodeTableWord 10 999 = some (.hlt 99) ∧ decodeTableWord 16 197 = some (.cla 97) ∧
      decodeTableWord 16 65535 = some (.skip (-1)) ∧ decodeTableWord 16 1000 = none := by decide

/-- The placed word is what the very next step runs: CLA 97 on the reset state. -/
theorem test_withFetchWord_runs : seen State.acc (step (State.reset.withFetchWord 16 197)) = some (-40) := by decide

/-- It runs on a halted machine with a recorded fault too (log entry 5). -/
theorem test_withFetchWord_arms :
    seen State.acc (step (State.withFetchWord { State.reset with rs := .halted, faultRecord := some .ipOverflow } 16 197))
      = some (-40) := by decide

/-! ### One step of each instruction -/

/-- S9, R90: the first tick after a hard reset. -/
theorem test_step_cla_from_reset :
    seen (fun s => (s.acc, s.ip, s.rs)) (step State.reset) = some (-40, 1, .running) := by decide

/-- V4: CLA loads its own word. -/
theorem test_step_cla_own_word : seen (fun s => (s.acc, s.ip)) (step (at_ 10 110 0)) = some (110, 11) := by decide

/-- V6: ACC 12345 stores 345; ACC is unchanged. -/
theorem test_step_sto : seen (fun s => (s.readMem 50, s.acc, s.ip)) (step (at_ 10 650 12345)) = some (345, 12345, 11) := by
  decide

/-- S12: -1500 stores -500. -/
theorem test_step_sto_sign : seen (fun s => s.readMem 50) (step (at_ 10 650 (-1500))) = some (-500) := by decide

/-- V8: OUT of 0 shows 0, not blank. -/
theorem test_step_out : seen (fun s => (s.outr, s.acc)) (step (at_ 10 550 7)) = some (.val 0, 7) := by decide

/-- 2.3: 9999 plus 999 is 10998, with no reduction. -/
theorem test_step_add : seen State.acc (step ((at_ 10 250 9999).writeMem 50 999)) = some 10998 := by decide

/-- 2.3: 2^63 - 1 plus 1 is the fault AccOverflow. -/
theorem test_step_add_overflow :
    faultIn (step ((at_ 10 250 9223372036854775807).writeMem 50 1)) = some .accOverflow := by decide

/-- 2.3: -40 minus 24 is -64. -/
theorem test_step_sub : seen State.acc (step ((at_ 10 750 (-40)).writeMem 50 24)) = some (-64) := by decide

/-- 2.3: -2^63 minus 1 is the fault AccOverflow. -/
theorem test_step_sub_overflow :
    faultIn (step ((at_ 10 750 (-9223372036854775808)).writeMem 50 1)) = some .accOverflow := by decide

/-- H13, H3, H6: -1234 by (1,3), -12345 by (0,0), 1234 by (1,0). -/
theorem test_step_sft :
    seen State.acc (step (at_ 10 413 (-1234))) = some (-12) ∧
      seen State.acc (step (at_ 10 400 (-12345))) = some (-2345) ∧
      seen State.acc (step (at_ 10 410 1234)) = some 2340 := by decide

/-- H20, H21: the largest product in range, and the next. -/
theorem test_step_sft_range :
    seen State.acc (step (at_ 10 490 9223372036)) = some 0 ∧
      faultIn (step (at_ 10 490 9223372037)) = some .accOverflow := by decide

/-- S5: TAC 18 at 16 with ACC -1 and with ACC 0. -/
theorem test_step_tac :
    seen State.ip (step (at_ 16 318 (-1))) = some 18 ∧ seen State.ip (step (at_ 16 318 0)) = some 17 := by decide

/-- 2.4: TAC at 99, taken and not taken. -/
theorem test_step_tac_at_99 :
    seen State.ip (step (at_ 99 305 (-1))) = some 5 ∧ faultIn (step (at_ 99 305 0)) = some .ipOverflow := by decide

/-- S8: 850 at 10. -/
theorem test_step_jmp : seen (fun s => (s.readMem 99, s.ip)) (step (at_ 10 850 0)) = some (811, 50) := by decide

/-- 2.4: 850 at 99 writes 900 over itself. -/
theorem test_step_jmp_at_99 : seen (fun s => (s.readMem 99, s.ip)) (step (at_ 99 850 0)) = some (900, 50) := by decide

/-- 2.4: 955 at 42; the operand digits are ignored. -/
theorem test_step_hlt : seen (fun s => (s.ip, s.rs, s.acc)) (step (at_ 42 955 77)) = some (0, .halted, 77) := by decide

/-- 2.4: HLT in Step leaves Halted, not Paused. -/
theorem test_step_hlt_in_step : seen State.rs (step ((at_ 5 900 0).setRs .step)) = some .halted := by decide

/-- 2.4: opcode 0 in Step, OP0_ADVANCE false: IP stays and the step ends. -/
theorem test_step_op0 : seen (fun s => (s.ip, s.rs)) (step ((at_ 6 37 0).setRs .step)) = some (6, .paused) := by decide

/-- 2.4: opcode 0 with OP0_ADVANCE true, at 6 and at 99. -/
theorem test_step_op0_advancing :
    seen State.ip (step (advancing (at_ 6 0 0))) = some 7 ∧
      faultIn (step (advancing (at_ 99 0 0))) = some .ipOverflow := by decide

/-- T3: a skip in Step. -/
theorem test_step_skip : seen (fun s => (s.ip, s.rs)) (step ((at_ 6 (-500) 0).setRs .step)) = some (7, .paused) := by
  decide

/-- T4: a skip at 99. -/
theorem test_step_skip_at_99 : faultIn (step (at_ 99 (-1) 0)) = some .ipOverflow := by decide

/-- T7: the fetch of 1234. -/
theorem test_step_undecodable : faultIn (step (at_ 6 1234 0)) = some (.undecodableWord 1234) := by decide

/-- T5, T6: Paused and Halted. -/
theorem test_step_idle :
    seen id (step ((at_ 6 197 0).setRs .paused)) = some ((at_ 6 197 0).setRs .paused) ∧
      seen id (step ((at_ 6 197 0).setRs .halted)) = some ((at_ 6 197 0).setRs .halted) := by decide

/-! ### Resets and host commands -/

/-- S2: soft reset of ACC 77, IP 42, Paused, OUTR 5. -/
theorem test_softReset :
    softReset { State.reset with acc := 77, ip := 42, rs := .paused, outr := .val 5 } =
      { State.reset with acc := 77, ip := 0, rs := .running, outr := .val 5 } := by decide

/-- S1: a word the image holds and one it does not, after a store over each. -/
theorem test_hardReset :
    (hardReset ((State.reset.writeMem 97 5).writeMem 95 (-600))).readMem 97 = -40 ∧
      (hardReset ((State.reset.writeMem 97 5).writeMem 95 (-600))).readMem 95 = 0 := by decide

/-- 2.5: set_memory at the edges of its ranges. -/
theorem test_setMemory_edges :
    (setMemory 0 (-999) State.reset).2 = .ok ∧ (setMemory 99 999 State.reset).2 = .ok ∧
      (setMemory 50 1000 State.reset).2 = .rejected ∧ (setMemory 50 (-1000) State.reset).2 = .rejected ∧
      (setMemory 100 0 State.reset).2 = .rejected ∧ (setMemory (-1) 0 State.reset).2 = .rejected := by decide

/-- 2.5: set_memory(7, 5) in Step at IP 3 keeps both. -/
theorem test_setMemory_in_step :
    (fun s : State => (s.readMem 7, s.rs, s.ip)) (setMemory 7 5 { State.reset with rs := .step, ip := 3 }).1 =
      (5, .step, 3) := by decide

/-- L9, L10: single_step_request in Running and Step. -/
theorem test_singleStepRequest_noop :
    (singleStepRequest State.reset).rs = .running ∧
      (singleStepRequest (State.reset.setRs .step)).rs = .step := by decide

/-- R31, R183: a fault is recorded, IP stays 99, and a hard reset does not clear it. -/
theorem test_fault_is_recorded :
    (fun s : State => (s.faultRecord, s.ip)) (hostCommands [.executeCurrent, .hardReset] (at_ 99 (-1) 0)) =
      (some .ipOverflow, 99) := by decide

/-- Writing the hard-reset word of an address unlists it. -/
theorem test_write_is_canonical : ((State.reset.writeMem 95 7).writeMem 95 0).mem = [] := by decide

/-! ### Witnesses: the hypotheses of the statements, met -/

theorem witness_DecodeOfEncodeIsTheInstruction : (Instr.skip (-1)).wellFormed = true := by decide

theorem witness_EncodeOfDecodeIsTheWord : decode 0 = .ok (.op0 0) ∧ decode 999 = .ok (.hlt 99) := by decide

theorem witness_FieldsOfAThreeDigitWord :
    (999 : Int) = 100 * ((9 : Digit).val : Int) + 10 * ((9 : Digit).val : Int) + ((9 : Digit).val : Int) ∧
      (99 : Addr).val = 10 * (9 : Digit).val + (9 : Digit).val ∧ (0 : Int) ≤ 999 ∧ (-1 : Int) < 0 := by decide

theorem witness_ShiftCountsAreTheOperandDigits :
    ((9 : Digit).val : Int) = ((90 : Addr).val : Int).tdiv 10 ∧
      ((0 : Digit).val : Int) = ((90 : Addr).val : Int).tmod 10 := by decide

theorem witness_TheOpcodeMapIsComplete : (0 : Int) ≤ 999 ∧ (999 : Int) ≤ 999 ∧ (-1 : Int) < 0 := by decide

theorem witness_OnlyWordsOver999AreUndecodable :
    (999 : Int) < 1000 ∧ (at_ 6 1000 0).faultRecord = none ∧ (at_ 6 1000 0).rs = .running ∧
      (at_ 6 1000 0).readMem (at_ 6 1000 0).ip = 1000 := by decide

theorem witness_StepRunsTheDecodedInstruction_decodes :
    State.reset.faultRecord = none ∧ State.reset.rs = .running ∧
      decode (State.reset.readMem State.reset.ip) = .ok (.cla 97) := by decide

theorem witness_StepRunsTheDecodedInstruction_undecodable :
    (at_ 6 1000 0).faultRecord = none ∧ (at_ 6 1000 0).rs = .running ∧
      decode ((at_ 6 1000 0).readMem (at_ 6 1000 0).ip) = .error (.noHandler 1000) := by decide

theorem witness_StepRunsTheDecodedInstruction_idle :
    (State.reset.setRs .paused).faultRecord = none ∧ (State.reset.setRs .paused).rs = .paused := by decide

theorem witness_TickIsANoOpUnlessRunningOrStep :
    (State.reset.setRs .halted).faultRecord = none ∧ (State.reset.setRs .halted).rs ≠ .running ∧
      (State.reset.setRs .halted).rs ≠ .step := by decide

/-- HLT in Step, CLA in Step and CLA in Running each have a next state. -/
theorem witness_SingleStepEndsAfterOneTick :
    (seen State.rs (step ((at_ 6 900 0).setRs .step))).isSome = true ∧
      decode (((at_ 6 900 0).setRs .step).readMem 6) = .ok (.hlt 0) ∧
      (seen State.rs (step ((at_ 6 197 0).setRs .step))).isSome = true ∧
      (seen State.rs (step (at_ 6 197 0))).isSome = true ∧
      decode (((at_ 6 197 0).setRs .step).readMem 6) = .ok (.cla 97) := by decide

theorem witness_NegativeWordIsSkipped :
    (at_ 98 (-1) 0).faultRecord = none ∧ (at_ 98 (-1) 0).readMem (at_ 98 (-1) 0).ip < 0 ∧
      (99 : Addr).val = (at_ 98 (-1) 0).ip.val + 1 ∧ (at_ 98 (-1) 0).rs = .running ∧
      ((at_ 98 (-1) 0).setRs .step).rs = .step := by decide

theorem witness_NegativeWordIsSkipped_at_99 :
    (at_ 99 (-1) 0).faultRecord = none ∧ (at_ 99 (-1) 0).readMem (at_ 99 (-1) 0).ip < 0 ∧
      (at_ 99 (-1) 0).rs = .running ∧ (at_ 99 (-1) 0).ip = 99 := by decide

theorem witness_OnlyHaltEndsARun :
    seen State.rs (step (at_ 6 900 0)) = some .halted ∧ (at_ 6 900 0).rs ≠ .halted := by decide

/-- An STO with a next state, and a state with that memory whose IP is at the word stored. -/
theorem witness_FetchSeesTheLastStore_sto :
    decode ((at_ 10 650 5).readMem 10) = .ok (.sto 50) ∧
      ∃ t u : State, step (at_ 10 650 5) = .next t ∧ u.mem = t.mem ∧ u.ip = 50 :=
  ⟨by decide, _, State.setIp (State.setAcc (at_ 10 650 5 |>.writeMem 50 5) 0) 50, rfl, rfl, rfl⟩

/-- A JMP with a next state whose IP is at the link cell. -/
theorem witness_FetchSeesTheLastStore_jmp :
    decode ((at_ 10 899 5).readMem 10) = .ok (.jmp 99) ∧
      ∃ t u : State, step (at_ 10 899 5) = .next t ∧ u.mem = t.mem ∧ u.ip = 99 :=
  ⟨by decide, _, _, rfl, rfl, rfl⟩

/-- A next address below 99, and IP at 99. -/
theorem witness_ClaLoadsItsWord :
    (99 : Addr).val = (at_ 98 150 0).ip.val + 1 ∧ (at_ 99 150 0).ip = 99 := by decide

theorem witness_StoStoresThreeDigitsWithTheSign :
    (99 : Addr).val = (at_ 98 650 (-1500)).ip.val + 1 ∧ (at_ 99 650 0).ip = 99 ∧ (at_ 98 650 (-1500)).acc ≤ 0 ∧
      0 ≤ (at_ 99 650 0).acc := by decide

theorem witness_OutShowsItsWord :
    (99 : Addr).val = (at_ 98 550 0).ip.val + 1 ∧ (at_ 99 550 0).ip = 99 := by decide

theorem witness_ClaThenStoChangesNoWord :
    -999 ≤ (at_ 97 150 0).readMem 50 ∧ (at_ 97 150 0).readMem 50 ≤ 999 ∧
      (99 : Addr).val = (at_ 97 150 0).ip.val + 2 := by decide

/-- ADD in range with a next address and at 99, and out of range on both sides. -/
theorem witness_AddIsExactOrFaults :
    (at_ 98 250 5).acc + (at_ 98 250 5).readMem 50 ≤ 2 ^ 63 - 1 ∧
      -(2 ^ 63) ≤ (at_ 98 250 5).acc + (at_ 98 250 5).readMem 50 ∧ (99 : Addr).val = (at_ 98 250 5).ip.val + 1 ∧
      (at_ 99 250 5).ip = 99 ∧
      2 ^ 63 - 1 < (at_ 10 297 (2 ^ 63 + 39)).acc + (at_ 10 297 (2 ^ 63 + 39)).readMem 98 ∧
      (at_ 10 297 (-(2 ^ 63))).acc + (at_ 10 297 (-(2 ^ 63))).readMem 97 < -(2 ^ 63) := by decide

/-- SUB in range with a next address and at 99, and out of range on both sides. -/
theorem witness_SubIsExactOrFaults :
    (at_ 98 750 5).acc - (at_ 98 750 5).readMem 50 ≤ 2 ^ 63 - 1 ∧
      -(2 ^ 63) ≤ (at_ 98 750 5).acc - (at_ 98 750 5).readMem 50 ∧ (99 : Addr).val = (at_ 98 750 5).ip.val + 1 ∧
      (at_ 99 750 5).ip = 99 ∧
      2 ^ 63 - 1 < (at_ 10 797 (2 ^ 63 - 1)).acc - (at_ 10 797 (2 ^ 63 - 1)).readMem 97 ∧
      (at_ 10 798 (-(2 ^ 63))).acc - (at_ 10 798 (-(2 ^ 63))).readMem 98 < -(2 ^ 63) := by decide

/-- SFT in range without and with a reduction, at 99, and out of range on both sides. -/
theorem witness_SftMultipliesDividesReduces :
    (-23400 : Int) = (at_ 98 401 (-23400)).acc * 10 ^ (0 : Digit).val ∧
      (-2340 : Int) = (-23400 : Int).tdiv (10 ^ (1 : Digit).val) ∧ |(-2340 : Int)| ≤ 9999 ∧
      (-(2 ^ 63) : Int) ≤ -23400 ∧ (-23400 : Int) ≤ 2 ^ 63 - 1 ∧ (99 : Addr).val = (at_ 98 401 (-23400)).ip.val + 1 ∧
      (9999 : Int) < |(12340 : Int)| ∧ (12340 : Int) = (at_ 99 410 1234).acc * 10 ^ (1 : Digit).val ∧
      (at_ 99 410 1234).ip = 99 ∧ (2 ^ 63 - 1 : Int) < 9223372037 * 10 ^ (9 : Digit).val ∧
      (-9223372037 : Int) * 10 ^ (9 : Digit).val < -(2 ^ 63) := by decide

theorem witness_SftLeavesFourDigitsAndTheSign :
    seen State.acc (exec (.sft 2 0) (at_ 10 420 (-16))) = some (-1600) ∧ (at_ 10 420 (-16)).acc ≤ 0 := by decide

theorem witness_ReductionLoopIsOneRemainder :
    |(-9999 : Int)| ≤ 9999 ∧ seen State.acc (exec (.sft 0 0) (at_ 98 400 12345)) = some 2345 := by decide

theorem witness_OpcodeZeroFollowsItsParameter :
    (at_ 6 37 0).cfg.op0Advance = false ∧ (at_ 6 37 0).faultRecord = none ∧
      (at_ 6 37 0).readMem (at_ 6 37 0).ip = ((37 : Addr).val : Int) ∧ (at_ 6 37 0).rs = .running ∧
      ((at_ 6 37 0).setRs .step).rs = .step := by decide

theorem witness_OpcodeZeroFollowsItsParameter_advancing :
    (advancing (at_ 98 0 0)).cfg.op0Advance = true ∧ (99 : Addr).val = (advancing (at_ 98 0 0)).ip.val + 1 ∧
      (advancing (at_ 99 0 0)).cfg.op0Advance = true ∧ (advancing (at_ 99 0 0)).ip = 99 := by decide

theorem witness_OpcodeZeroLivelock :
    (at_ 6 99 0).cfg.op0Advance = false ∧ (at_ 6 99 0).faultRecord = none ∧ (at_ 6 99 0).rs = .running ∧
      0 ≤ (at_ 6 99 0).readMem (at_ 6 99 0).ip ∧ (at_ 6 99 0).readMem (at_ 6 99 0).ip ≤ 99 := by decide

theorem witness_TacBranchesOnlyOnNegative :
    (at_ 16 318 (-1)).acc < 0 ∧ 0 ≤ (at_ 98 318 0).acc ∧ (99 : Addr).val = (at_ 98 318 0).ip.val + 1 ∧
      (at_ 99 318 0).ip = 99 ∧ 0 ≤ (at_ 99 318 0).acc := by decide

theorem witness_JmpLinksThroughWord99 :
    (99 : Addr).val = (at_ 98 850 0).ip.val + 1 ∧ (at_ 99 850 0).ip = 99 := by decide

theorem witness_HltResetsIpAndHalts :
    ((at_ 5 999 0).setRs .step).faultRecord = none ∧ ((at_ 5 999 0).setRs .step).rs = .step ∧
      ((at_ 5 999 0).setRs .step).readMem ((at_ 5 999 0).setRs .step).ip = 900 + ((99 : Addr).val : Int) := by decide

theorem witness_JmpToTheLinkCellComesBackToItself :
    (at_ 98 899 0).faultRecord = none ∧ (at_ 98 899 0).rs = .running ∧
      (at_ 98 899 0).readMem (at_ 98 899 0).ip = 899 ∧ (99 : Addr).val = (at_ 98 899 0).ip.val + 1 := by decide

theorem witness_TakenTac99ReturnsThroughTheLink :
    ((at_ 7 399 (-1)).writeMem 99 899).faultRecord = none ∧ ((at_ 7 399 (-1)).writeMem 99 899).rs = .running ∧
      ((at_ 7 399 (-1)).writeMem 99 899).readMem 7 = 399 ∧ ((at_ 7 399 (-1)).writeMem 99 899).acc < 0 ∧
      ((at_ 7 399 (-1)).writeMem 99 899).readMem 99 = ((98 : Addr).val : Int) + 801 ∧
      (99 : Addr).val = (98 : Addr).val + 1 := by decide

theorem witness_OnlyStoAndJmpWriteMemory :
    (seen State.mem (exec (.sto 50) (at_ 10 650 5))).isSome = true ∧ (49 : Addr) ≠ 50 ∧
      (seen State.mem (exec (.jmp 50) (at_ 10 850 5))).isSome = true ∧ (98 : Addr) ≠ 99 := by decide

theorem witness_RegistersEachInstructionLeavesAlone :
    (seen State.acc (exec (.out 50) (at_ 10 550 5))).isSome = true ∧
      (seen State.acc (exec (.hlt 0) (at_ 10 900 5))).isSome = true := by decide

theorem witness_IpGoesToNextTargetZeroOrStays :
    (seen State.ip (exec (.cla 50) (at_ 98 150 5))).isSome = true ∧
      (seen State.ip (exec (.op0 0) (at_ 99 0 5))).isSome = true := by decide

theorem witness_TickKeepsTheInvariant :
    StateInv State.reset ∧ (seen State.ip (step State.reset)).isSome = true :=
  ⟨⟨rfl, fun a => bootWord_fits a, rfl, rfl⟩, by decide⟩

theorem witness_HostCommandKeepsTheInvariant : StateInv State.reset :=
  ⟨rfl, fun a => bootWord_fits a, rfl, rfl⟩

theorem witness_EveryFetchedWordDecodes : StateInv State.reset ∧ State.reset.faultRecord = none :=
  ⟨⟨rfl, fun a => bootWord_fits a, rfl, rfl⟩, rfl⟩

/-- Two different states that show the same snapshot: the second lists a word at its hard-reset value. -/
theorem witness_SnapshotDeterminesEveryAnswer :
    let s := State.reset
    let t : State := { State.reset with mem := [(6, 0)] }
    s ≠ t ∧ s.cfg = t.cfg ∧ s.faultRecord = t.faultRecord ∧ snapshot s = snapshot t := by decide

theorem witness_PauseStopsOnlyRunning :
    State.reset.rs = .running ∧ State.reset.faultRecord = none ∧ (State.reset.setRs .step).rs ≠ .running := by decide

theorem witness_ResumeLeavesOnlyPaused :
    (State.reset.setRs .paused).rs = .paused ∧ (State.reset.setRs .paused).faultRecord = none ∧
      (State.reset.setRs .halted).rs ≠ .paused := by decide

theorem witness_SingleStepRequestArmsPausedAndHalted :
    (State.reset.setRs .halted).rs = .halted ∧ (State.reset.setRs .halted).faultRecord = none ∧
      (State.reset.setRs .step).rs = .step := by decide

theorem witness_RunStateTransitionTable :
    (at_ 6 900 0).faultRecord = none ∧ decode ((at_ 6 900 0).readMem (at_ 6 900 0).ip) = .ok (.hlt 0) ∧
      (seen State.rs (step (at_ 6 900 0))).isSome = true ∧
      (seen State.rs (step ((at_ 6 900 0).setRs .paused))).isSome = true := by decide

theorem witness_SetMemoryWritesLegalWordsOnly :
    (-999 : Int) ≤ -999 ∧ (-999 : Int) ≤ 999 ∧ (-1 : Int) < 0 ∧ (99 : Int) < 100 ∧ (-1000 : Int) < -999 ∧
      (999 : Int) < 1000 ∧ State.reset.faultRecord = none := by decide

theorem witness_SoftResetMovesIpAndRunStateOnly : (State.reset.setRs .halted).faultRecord = none := by decide

theorem witness_HardResetRestoresTheImage :
    (State.reset.setRs .halted).faultRecord = none ∧ 6 ≤ (6 : Addr).val ∧ (96 : Addr).val ≤ 96 := by decide

theorem witness_SnapshotShowsTheFiveComponents : State.reset.faultRecord = none := by decide

theorem witness_SingleStepRunsOneInstruction :
    ((at_ 6 900 0).setRs .paused).faultRecord = none ∧ ((at_ 6 900 0).setRs .paused).rs = .paused ∧
      decode (((at_ 6 900 0).setRs .paused).readMem 6) = .ok (.hlt 0) ∧
      (seen State.rs (exec (.hlt 0) { (at_ 6 900 0).setRs .paused with rs := .step })).isSome = true := by decide

theorem witness_RecordedFaultIsPermanent :
    (State.reset.setFaultRecord (some .accOverflow)).faultRecord = some .accOverflow := by decide

theorem witness_FaultingTickIsRecorded :
    (at_ 99 150 0).faultRecord = none ∧ faultIn (step (at_ 99 150 0)) = some .ipOverflow ∧
      faultIn (step (at_ 6 1000 0)) = some (.undecodableWord 1000) := by decide

end Sys2Proof.Tests
end

/-! PROOFS. What an instruction does, in one normal form: its range check (`checkedValue`), its writes (`written`), and
then `adv()` where it advances (`advances`). -/

namespace Sys2Proof.Machine

open Sys2Proof.Safety

/-- The state after an instruction's writes and transfers, before its `adv()` (R88). -/
def written (i : Instr) (s : State) : State :=
  match i with
  | .op0 _ => s
  | .cla a => s.setAcc (readOperand a s)
  | .add a => s.setAcc (s.acc + readOperand a s)
  | .tac a => s.setIp (if accNegative s then a else s.ip)
  | .sft l r => s.setAcc (shiftRight (s.acc * pow10 l) r)
  | .out a => s.setOutr (.val (readOperand a s))
  | .sto a => writeOperand a (storedWord s.acc) s
  | .sub a => s.setAcc (s.acc - readOperand a s)
  | .jmp a => branchTo a (s.writeMem linkAddr (linkWord s.ip))
  | .hlt _ => (softReset s).setRs .halted
  | .skip _ => s

/-- The end of a handler: `adv()` where the instruction advances. -/
def finish (advancing : Bool) (s : State) : Result := if advancing then advance s else .next s

/-- A result behind the range check of a value, where there is one to check (R185). -/
def afterCheck : Option Int → Result → Result
  | none, r => r
  | some v, r => withChecked v fun _ => r

/-- A next state behind a check: the value passed, and the result is that state. -/
theorem afterCheck_eq_next {c : Option Int} {r : Result} {t : State} (h : afterCheck c r = .next t) :
    (∀ v, c = some v → accFits v = true) ∧ r = .next t := by
  cases c with
  | none => exact ⟨nofun, h⟩
  | some v =>
    obtain ⟨hfits, hr⟩ := withChecked_eq_next (k := fun _ => r) h
    exact ⟨fun w hw => Option.some.inj hw ▸ hfits, hr⟩

/-- A fault behind a check: AccOverflow, or the fault of the result. -/
theorem afterCheck_eq_fault {c : Option Int} {r : Result} {f : Fault} (h : afterCheck c r = .fault f) :
    f = .accOverflow ∨ r = .fault f := by
  cases c with
  | none => exact .inr h
  | some v =>
    simp only [afterCheck, withChecked] at h
    split at h
    · exact .inr h
    · cases h; exact .inl rfl

/-- Every handler checks its value, writes, and advances, in this order (R88, R185). -/
theorem exec_eq_afterCheck (i : Instr) (s : State) :
    exec i s = afterCheck (checkedValue i s) (finish (advances i s) (written i s)) := by
  cases i with
  | tac a =>
    change execTac a s = finish (decide (0 ≤ s.acc)) (s.setIp (if accNegative s then a else s.ip))
    by_cases h : s.acc < 0
    · simp [execTac, finish, accNegative_iff.mpr h, not_le.mpr h, branchTo]
    · have hneg : ¬ accNegative s = true := mt accNegative_iff.mp h
      simp only [execTac, finish, if_neg hneg, decide_eq_true (not_lt.mp h), if_true]
      rfl
  | _ => rfl

/-- The end of a handler changes nothing but IP. -/
theorem finish_eq_next {b : Bool} {s t : State} (h : finish b s = .next t) : ∃ n : Addr, t = s.setIp n := by
  cases b with
  | false => cases h; exact ⟨s.ip, rfl⟩
  | true => obtain ⟨n, -, ht⟩ := advance_eq_next h; exact ⟨n, ht⟩

/-- All that an instruction with a next state does: its check passed, and the state is the one written, up to IP. -/
theorem exec_eq_next {i : Instr} {s t : State} (h : exec i s = .next t) :
    (∀ v, checkedValue i s = some v → accFits v = true) ∧ ∃ n : Addr, t = (written i s).setIp n := by
  rw [exec_eq_afterCheck] at h
  obtain ⟨hcheck, hfinish⟩ := afterCheck_eq_next h
  exact ⟨hcheck, finish_eq_next hfinish⟩

/-- The end of a handler raises no fault but IpOverflow (R88). -/
theorem finish_eq_fault {b : Bool} {s : State} {f : Fault} (h : finish b s = .fault f) : f = .ipOverflow := by
  cases b with
  | false => cases h
  | true =>
    obtain ⟨n, -, e⟩ | ⟨-, e⟩ := advance_cases s
    · cases e.symm.trans h
    · cases e.symm.trans h; rfl

/-- An instruction raises no fault but AccOverflow and IpOverflow (R182). -/
theorem exec_eq_fault {i : Instr} {s : State} {f : Fault} (h : exec i s = .fault f) :
    f = .accOverflow ∨ f = .ipOverflow := by
  rw [exec_eq_afterCheck] at h
  exact (afterCheck_eq_fault h).imp_right finish_eq_fault

/-! ### What the writes leave alone (R33, R42) -/

theorem readMem_written {i : Instr} {b : Addr} (s : State) (hsto : ∀ a, i = .sto a → b ≠ a)
    (hjmp : ∀ a, i = .jmp a → b ≠ 99) : (written i s).readMem b = s.readMem b := by
  cases i with
  | sto a => exact readMem_writeMem_other s _ (hsto a rfl)
  | jmp a => exact readMem_writeMem_other s (a := linkAddr) (linkWord s.ip) (hjmp a rfl)
  | _ => rfl

theorem written_acc {i : Instr} (s : State) (hcla : ∀ a, i ≠ .cla a) (hadd : ∀ a, i ≠ .add a)
    (hsub : ∀ a, i ≠ .sub a) (hsft : ∀ l r, i ≠ .sft l r) : (written i s).acc = s.acc := by
  cases i with
  | cla a => exact absurd rfl (hcla a)
  | add a => exact absurd rfl (hadd a)
  | sub a => exact absurd rfl (hsub a)
  | sft l r => exact absurd rfl (hsft l r)
  | _ => rfl

theorem written_outr {i : Instr} (s : State) (hout : ∀ a, i ≠ .out a) : (written i s).outr = s.outr := by
  cases i with
  | out a => exact absurd rfl (hout a)
  | _ => rfl

theorem written_rs {i : Instr} (s : State) (hhlt : ∀ x, i ≠ .hlt x) : (written i s).rs = s.rs := by
  cases i with
  | hlt x => exact absurd rfl (hhlt x)
  | _ => rfl

@[simp] theorem written_faultRecord (i : Instr) (s : State) : (written i s).faultRecord = s.faultRecord := by
  cases i <;> rfl

@[simp] theorem written_cfg (i : Instr) (s : State) : (written i s).cfg = s.cfg := by
  cases i <;> rfl

/-! ### The values an instruction writes stay in range (R25, R21) -/

/-- STO's three digits are a word (R101). -/
theorem storedWord_fits (v : Int) : wordFits (storedWord v) = true := by
  have hlt : v.tmod 1000 < 1000 := Int.tmod_lt_of_pos v (by decide)
  have hgt : -1000 < v.tmod 1000 := Int.lt_tmod_of_pos v (by decide)
  rw [wordFits_iff, storedWord, stoMod]
  omega

/-- The link of a JMP at any address is a word (R143). -/
theorem linkWord_fits (a : Addr) : wordFits (linkWord a) = true := by
  rw [wordFits_iff, linkWord, linkBias]
  omega

/-- SFT's reduction leaves at most four digits (R124). -/
theorem abs_sftReduce_le (t : Int) : |sftReduce t| ≤ 9999 := by
  have hlt : t.tmod 10000 < 10000 := Int.tmod_lt_of_pos t (by decide)
  have hgt : -10000 < t.tmod 10000 := Int.lt_tmod_of_pos t (by decide)
  simp only [sftReduce, reduceRounds, sftMod]
  split
  · exact abs_le.mpr (by omega)
  · omega

theorem shiftRight_fits (p : Int) (r : Digit) : accFits (shiftRight p r) = true := by
  obtain ⟨hlo, hhi⟩ := abs_le.mp (abs_sftReduce_le (p.tdiv (pow10 r)))
  rw [accFits_iff, shiftRight]
  omega

end Sys2Proof.Machine

/-! PROOFS. The operations that move RS, each as one write of RS (R86, R160 to R162). -/

namespace Sys2Proof.Machine

theorem endStep_eq_setRs (s : State) : endStep s = s.setRs (if s.rs = .step then .paused else s.rs) := by
  unfold endStep
  split <;> rfl

theorem pause_eq_setRs (s : State) : pause s = s.setRs (if s.rs = .running then .paused else s.rs) := by
  unfold pause
  split <;> rfl

theorem resume_eq_setRs (s : State) : resume s = s.setRs (if s.rs = .paused then .running else s.rs) := by
  unfold resume
  split <;> rfl

theorem singleStepRequest_eq_setRs (s : State) :
    singleStepRequest s = s.setRs (if s.rs = .paused ∨ s.rs = .halted then .step else s.rs) := by
  unfold singleStepRequest
  split <;> rfl

end Sys2Proof.Machine

/-! PROOFS. The invariant of the state, operation by operation, then over a tick, a command and a session. -/

namespace Sys2Proof.Safety

open Sys2Proof.Machine

section operations

variable {s : State}

/-- The invariant reads neither IP, nor RS, nor the fault record. -/
@[simp] theorem stateInv_setIp {a : Addr} : StateInv (s.setIp a) ↔ StateInv s := Iff.rfl

@[simp] theorem stateInv_setRs {r : RunState} : StateInv (s.setRs r) ↔ StateInv s := Iff.rfl

@[simp] theorem stateInv_setFaultRecord {f : Option Fault} : StateInv (s.setFaultRecord f) ↔ StateInv s := Iff.rfl

@[simp] theorem stateInv_softReset : StateInv (softReset s) ↔ StateInv s := Iff.rfl

@[simp] theorem stateInv_endStep : StateInv (endStep s) ↔ StateInv s := by
  rw [endStep_eq_setRs, stateInv_setRs]

theorem StateInv.setAcc {v : Int} (h : StateInv s) (hv : accFits v = true) : StateInv (s.setAcc v) := by
  obtain ⟨hwf, hwords, -, houtr⟩ := h
  exact ⟨hwf, hwords, hv, houtr⟩

theorem StateInv.setOutr {v : Int} (h : StateInv s) (hv : wordFits v = true) : StateInv (s.setOutr (.val v)) := by
  obtain ⟨hwf, hwords, hacc, -⟩ := h
  exact ⟨hwf, hwords, hacc, hv⟩

theorem StateInv.writeMem {v : Int} (h : StateInv s) (a : Addr) (hv : wordFits v = true) :
    StateInv (s.writeMem a v) := by
  obtain ⟨hwf, hwords, hacc, houtr⟩ := h
  refine ⟨writeMem_wf a v hwf, fun b => ?_, hacc, houtr⟩
  by_cases hb : b = a
  · rw [hb, readMem_writeMem_same, hv]
  · rw [readMem_writeMem_other s v hb, hwords b]

theorem StateInv.readMem_fits (h : StateInv s) (a : Addr) : wordFits (s.readMem a) = true := by
  obtain ⟨-, hwords, -, -⟩ := h
  exact hwords a

/-- A hard reset establishes the invariant, whatever came before (R201). -/
theorem stateInv_hardReset (s : State) : StateInv (hardReset s) := ⟨rfl, bootWord_fits, rfl, rfl⟩

theorem stateInv_resetWith (cfg : Config) : StateInv (State.resetWith cfg) := ⟨rfl, bootWord_fits, rfl, rfl⟩

end operations

/-! ### A tick -/

/-- The writes of an instruction whose check passed keep the invariant. -/
theorem StateInv.written {i : Instr} {s : State} (h : StateInv s)
    (hcheck : ∀ v, checkedValue i s = some v → accFits v = true) : StateInv (written i s) := by
  cases i with
  | op0 x => exact h
  | cla a => exact h.setAcc (accFits_of_wordFits (h.readMem_fits a))
  | add a => exact h.setAcc (hcheck _ rfl)
  | tac a => exact h
  | sft l r => exact h.setAcc (shiftRight_fits _ r)
  | out a => exact h.setOutr (h.readMem_fits a)
  | sto a => exact h.writeMem a (storedWord_fits s.acc)
  | sub a => exact h.setAcc (hcheck _ rfl)
  | jmp a => exact h.writeMem linkAddr (linkWord_fits s.ip)
  | hlt x => exact h
  | skip w => exact h

theorem StateInv.exec {i : Instr} {s t : State} (h : StateInv s) (ht : exec i s = .next t) : StateInv t := by
  obtain ⟨hcheck, n, rfl⟩ := exec_eq_next ht
  exact stateInv_setIp.mpr (h.written hcheck)

theorem StateInv.step {s t : State} (h : StateInv s) (ht : step s = .next t) : StateInv t := by
  obtain ⟨-, ⟨-, rfl⟩ | ⟨-, i, u, -, hu, rfl⟩⟩ := step_eq_next ht
  · exact h
  · exact stateInv_endStep.mpr (h.exec hu)

end Sys2Proof.Safety

/-! PROOFS. What the host's commands can do to a state, and the sessions made of them. -/

namespace Sys2Proof.Machine

open Sys2Proof.Safety

/-- All that `set_memory` can do: write a word in range at an existing address, or nothing (R166). -/
theorem setMemory_cases (a v : Int) (s : State) :
    (wordFits v = true ∧ ∃ b : Addr, (b.val : Int) = a ∧ setMemory a v s = (s.writeMem b v, .ok)) ∨
      setMemory a v s = (s, .rejected) := by
  by_cases ha : 0 ≤ a ∧ a ≤ 99
  · cases hv : wordFits v with
    | true => exact .inl ⟨rfl, ⟨a.toNat, by omega⟩, Int.toNat_of_nonneg ha.1, by simp [setMemory, ha, hv]⟩
    | false => exact .inr (by simp [setMemory, hv])
  · exact .inr (by simp only [setMemory, dif_neg ha])

/-- All that a tick can do as a command: its next state, or a record of its fault, or nothing. -/
theorem executeCurrent_cases (s : State) :
    (∃ t, step s = .next t ∧ executeCurrent s = (t, .none)) ∨
      (∃ f, step s = .fault f ∧ executeCurrent s = (s.setFaultRecord (some f), .stuck)) ∨
      executeCurrent s = (s, .stuck) := by
  cases h : step s with
  | next t => exact .inl ⟨t, rfl, executeCurrent_next h⟩
  | fault f => exact .inr (.inl ⟨f, rfl, executeCurrent_fault h⟩)
  | refused r => exact .inr (.inr (by simp [executeCurrent, h]))

/-- What every command keeps holds after a session. -/
theorem hostCommands_keeps {P : State → Prop} (hP : ∀ c s, P s → P (hostCommand c s).1) (cs : List Command)
    {s : State} (h : P s) : P (hostCommands cs s) := by
  induction cs generalizing s with
  | nil => exact h
  | cons c cs ih => exact ih (hP c s h)

/-! ### The invariant -/

theorem stateInv_executeCurrent {s : State} (h : StateInv s) : StateInv (executeCurrent s).1 := by
  obtain ⟨t, ht, e⟩ | ⟨f, -, e⟩ | e := executeCurrent_cases s
  · rw [e]; exact h.step ht
  · rw [e]; exact stateInv_setFaultRecord.mpr h
  · rw [e]; exact h

theorem stateInv_setMemory {s : State} (a v : Int) (h : StateInv s) : StateInv (setMemory a v s).1 := by
  obtain ⟨hv, b, -, e⟩ | e := setMemory_cases a v s
  · rw [e]; exact h.writeMem b hv
  · rw [e]; exact h

theorem stateInv_obey (c : Command) {s : State} (h : StateInv s) : StateInv (obey c s).1 := by
  cases c with
  | snapshot => exact h
  | executeCurrent => exact stateInv_executeCurrent h
  | pause => simpa [obey, pause_eq_setRs] using h
  | resume => simpa [obey, resume_eq_setRs] using h
  | singleStepRequest => simpa [obey, singleStepRequest_eq_setRs] using h
  | setMemory a v => exact stateInv_setMemory a v h
  | softReset => exact stateInv_softReset.mpr h
  | hardReset => exact stateInv_hardReset s

theorem stateInv_hostCommand (c : Command) {s : State} (h : StateInv s) : StateInv (hostCommand c s).1 := by
  cases hf : s.faultRecord with
  | some f => rw [hostCommand_stuck hf]; exact h
  | none => rw [hostCommand_obey hf]; exact stateInv_obey c h

/-! ### No word is undecodable -/

/-- Every word up to 999 decodes (R67). -/
theorem decode_of_le {w : Int} (h : w ≤ 999) : ∃ i, decode w = .ok i := by
  by_cases hneg : w < 0
  · exact ⟨.skip w, by simp [decode, hneg]⟩
  · have hop : (opcodeField w).toNat < 10 := by
      rw [opcodeField, Int.tdiv_eq_ediv_of_nonneg (by omega)]
      omega
    exact ⟨_, (if_neg hneg).trans (dif_pos hop)⟩

/-- Under the invariant the tick fetches an instruction (R25, R67). -/
theorem fetchInstr_of_stateInv {s : State} (h : StateInv s) : ∃ i, fetchInstr s = .ok i :=
  decode_of_le (wordFits_iff.mp (h.readMem_fits s.ip)).2

/-- Where a tick's fault comes from: a record, the decoder, or the instruction. -/
theorem step_eq_fault {s : State} {f : Fault} (h : step s = .fault f) :
    s.faultRecord = some f ∨ (∃ e, fetchInstr s = .error e ∧ f = faultOf e) ∨
      ∃ i, fetchInstr s = .ok i ∧ exec i s = .fault f := by
  unfold step at h
  cases hf : s.faultRecord with
  | some g => rw [gated_faulted hf] at h; cases h; exact .inl rfl
  | none =>
    refine .inr ?_
    cases hr : s.rs.executes with
    | false => rw [gated_idle hf hr] at h; cases h
    | true =>
      rw [gated_executes hf hr] at h
      cases hi : fetchInstr s with
      | error e => rw [hi] at h; cases h; exact .inl ⟨e, rfl, rfl⟩
      | ok i =>
        refine .inr ⟨i, rfl, ?_⟩
        rw [hi] at h
        cases hx : exec i s with
        | fault g => simpa [hx, endTick] using h
        | next t => simp [hx, endTick] at h
        | refused r => simp [hx, endTick] at h

/-- The fault record is not an UndecodableWord. -/
def NoUndecodable (s : State) : Prop := ∀ w : Int, s.faultRecord ≠ some (.undecodableWord w)

theorem noUndecodable_congr {s t : State} (h : t.faultRecord = s.faultRecord) :
    NoUndecodable t ↔ NoUndecodable s := by
  simp [NoUndecodable, h]

/-- Under the invariant a tick raises no UndecodableWord, unless one is recorded already (R25, R67, R83). -/
theorem step_fault_ne_undecodable {s : State} {f : Fault} (hinv : StateInv s) (hrec : NoUndecodable s)
    (h : step s = .fault f) (w : Int) : f ≠ .undecodableWord w := by
  obtain ⟨i, hi⟩ := fetchInstr_of_stateInv hinv
  rintro rfl
  obtain hf | ⟨e, he, -⟩ | ⟨j, -, hx⟩ := step_eq_fault h
  · exact hrec w hf
  · rw [hi] at he; cases he
  · obtain hx | hx := exec_eq_fault hx <;> cases hx

theorem exec_faultRecord {i : Instr} {s t : State} (h : exec i s = .next t) :
    t.faultRecord = s.faultRecord := by
  obtain ⟨-, n, rfl⟩ := exec_eq_next h
  exact written_faultRecord i s

theorem step_faultRecord {s t : State} (h : step s = .next t) : t.faultRecord = s.faultRecord := by
  obtain ⟨-, ⟨-, rfl⟩ | ⟨-, i, u, -, hu, rfl⟩⟩ := step_eq_next h
  · rfl
  · rw [endStep_faultRecord, exec_faultRecord hu]

/-- No command but a tick writes the fault record. -/
theorem obey_faultRecord {c : Command} (hc : c ≠ .executeCurrent) (s : State) :
    (obey c s).1.faultRecord = s.faultRecord := by
  cases c with
  | snapshot => rfl
  | executeCurrent => exact absurd rfl hc
  | pause => simp [obey, pause_eq_setRs]
  | resume => simp [obey, resume_eq_setRs]
  | singleStepRequest => simp [obey, singleStepRequest_eq_setRs]
  | setMemory a v => obtain ⟨-, b, -, e⟩ | e := setMemory_cases a v s <;> simp [obey, e]
  | softReset => rfl
  | hardReset => rfl

theorem noUndecodable_executeCurrent {s : State} (hinv : StateInv s) (hrec : NoUndecodable s) :
    NoUndecodable (executeCurrent s).1 := by
  obtain ⟨t, ht, e⟩ | ⟨f, hf, e⟩ | e := executeCurrent_cases s
  · rw [e]; exact (noUndecodable_congr (step_faultRecord ht)).mpr hrec
  · rw [e]; intro w hw
    exact step_fault_ne_undecodable hinv hrec hf w (Option.some.inj hw)
  · rw [e]; exact hrec

theorem noUndecodable_hostCommand (c : Command) {s : State} (hinv : StateInv s) (hrec : NoUndecodable s) :
    NoUndecodable (hostCommand c s).1 := by
  cases hf : s.faultRecord with
  | some f => rw [hostCommand_stuck hf]; exact hrec
  | none =>
    rw [hostCommand_obey hf]
    by_cases hc : c = .executeCurrent
    · rw [hc]; exact noUndecodable_executeCurrent hinv hrec
    · exact (noUndecodable_congr (obey_faultRecord hc s)).mpr hrec

end Sys2Proof.Machine

/-! PROOFS. Two states that differ at most in how memory is listed: every operation keeps them so, and every command
answers alike in both. -/

namespace Sys2Proof.Machine

open Sys2Proof.Safety

/-- The states agree in every field, memory compared word by word. -/
structure Alike (s t : State) : Prop where
  acc : s.acc = t.acc
  ip : s.ip = t.ip
  word : ∀ a : Addr, s.readMem a = t.readMem a
  rs : s.rs = t.rs
  outr : s.outr = t.outr
  faultRecord : s.faultRecord = t.faultRecord
  cfg : s.cfg = t.cfg

/-- Snapshots agree exactly when the five components do (R165). -/
theorem snapshot_eq_iff {s t : State} :
    snapshot s = snapshot t ↔
      s.acc = t.acc ∧ s.ip = t.ip ∧ (∀ a : Addr, s.readMem a = t.readMem a) ∧ s.rs = t.rs ∧
        s.outr = t.outr := by
  simp [snapshot, memoryImage_eq_iff]

theorem alike_iff {s t : State} :
    Alike s t ↔ s.cfg = t.cfg ∧ s.faultRecord = t.faultRecord ∧ snapshot s = snapshot t := by
  rw [snapshot_eq_iff]
  constructor
  · intro h
    exact ⟨h.cfg, h.faultRecord, h.acc, h.ip, h.word, h.rs, h.outr⟩
  · rintro ⟨hcfg, hrec, hacc, hip, hword, hrs, houtr⟩
    exact ⟨hacc, hip, hword, hrs, houtr, hrec, hcfg⟩

namespace Alike

variable {s t : State}

theorem setAcc (h : Alike s t) (v : Int) : Alike (s.setAcc v) (t.setAcc v) := { h with acc := rfl }

theorem setIp (h : Alike s t) (a : Addr) : Alike (s.setIp a) (t.setIp a) := { h with ip := rfl }

theorem setRs (h : Alike s t) (r : RunState) : Alike (s.setRs r) (t.setRs r) := { h with rs := rfl }

theorem setOutr (h : Alike s t) (o : Output) : Alike (s.setOutr o) (t.setOutr o) := { h with outr := rfl }

theorem setFaultRecord (h : Alike s t) (f : Option Fault) : Alike (s.setFaultRecord f) (t.setFaultRecord f) :=
  { h with faultRecord := rfl }

theorem writeMem (h : Alike s t) (a : Addr) (v : Int) : Alike (s.writeMem a v) (t.writeMem a v) := by
  refine { h with word := fun b => ?_ }
  by_cases hb : b = a
  · rw [hb, readMem_writeMem_same, readMem_writeMem_same]
  · rw [readMem_writeMem_other s v hb, readMem_writeMem_other t v hb, h.word b]

theorem softReset (h : Alike s t) : Alike (softReset s) (softReset t) := (h.setIp 0).setRs .running

theorem hardReset (h : Alike s t) : Alike (hardReset s) (hardReset t) :=
  ⟨rfl, rfl, fun _ => rfl, rfl, rfl, h.faultRecord, h.cfg⟩

theorem endStep (h : Alike s t) : Alike (endStep s) (endStep t) := by
  rw [endStep_eq_setRs, endStep_eq_setRs, h.rs]
  exact h.setRs _

theorem pause (h : Alike s t) : Alike (pause s) (pause t) := by
  rw [pause_eq_setRs, pause_eq_setRs, h.rs]
  exact h.setRs _

theorem resume (h : Alike s t) : Alike (resume s) (resume t) := by
  rw [resume_eq_setRs, resume_eq_setRs, h.rs]
  exact h.setRs _

theorem singleStepRequest (h : Alike s t) : Alike (singleStepRequest s) (singleStepRequest t) := by
  rw [singleStepRequest_eq_setRs, singleStepRequest_eq_setRs, h.rs]
  exact h.setRs _

theorem fetchInstr_eq (h : Alike s t) : fetchInstr s = fetchInstr t := by
  rw [fetchInstr, fetchInstr, fetchWord, fetchWord, h.ip, h.word]

theorem advances_eq (h : Alike s t) (i : Instr) : advances i s = advances i t := by
  cases i <;> simp [advances, h.cfg, h.acc]

theorem checkedValue_eq (h : Alike s t) (i : Instr) : checkedValue i s = checkedValue i t := by
  cases i <;> simp [checkedValue, h.acc, h.word]

theorem written (h : Alike s t) (i : Instr) : Alike (written i s) (written i t) := by
  cases i with
  | op0 x => exact h
  | cla a => simpa [Machine.written, readOperand, h.word] using h.setAcc (t.readMem a)
  | add a => simpa [Machine.written, readOperand, h.word, h.acc] using h.setAcc (t.acc + t.readMem a)
  | tac a => simpa [Machine.written, accNegative, h.acc, h.ip] using h.setIp (if t.acc < 0 then a else t.ip)
  | sft l r => simpa [Machine.written, h.acc] using h.setAcc (shiftRight (t.acc * pow10 l) r)
  | out a => simpa [Machine.written, readOperand, h.word] using h.setOutr (.val (t.readMem a))
  | sto a => simpa [Machine.written, writeOperand, h.acc] using h.writeMem a (storedWord t.acc)
  | sub a => simpa [Machine.written, readOperand, h.word, h.acc] using h.setAcc (t.acc - t.readMem a)
  | jmp a => simpa [Machine.written, branchTo, h.ip] using (h.writeMem linkAddr (linkWord t.ip)).setIp a
  | hlt x => exact h.softReset.setRs .halted
  | skip w => exact h

end Alike

/-! ### Results -/

/-- Two results agree: next states alike, or the same fault, or the same refusal. -/
inductive ResultsAlike : Result → Result → Prop
  | next {s t : State} (h : Alike s t) : ResultsAlike (.next s) (.next t)
  | fault (f : Fault) : ResultsAlike (.fault f) (.fault f)
  | refused (r : Refusal) : ResultsAlike (.refused r) (.refused r)

namespace Alike

variable {s t : State}

theorem advance (h : Alike s t) : ResultsAlike (advance s) (advance t) := by
  unfold Machine.advance
  rw [h.ip]
  split
  · exact .next (h.setIp _)
  · exact .fault _

theorem finish (h : Alike s t) (b : Bool) : ResultsAlike (finish b s) (finish b t) := by
  cases b with
  | false => exact .next h
  | true => exact h.advance

end Alike

theorem ResultsAlike.afterCheck {r q : Result} (h : ResultsAlike r q) (v : Option Int) :
    ResultsAlike (afterCheck v r) (afterCheck v q) := by
  cases v with
  | none => exact h
  | some v =>
    simp only [Machine.afterCheck, withChecked]
    split
    · exact h
    · exact .fault _

theorem ResultsAlike.endTick {r q : Result} (h : ResultsAlike r q) : ResultsAlike (endTick r) (endTick q) := by
  cases h with
  | next h => exact .next h.endStep
  | fault f => exact .fault f
  | refused r => exact .refused r

namespace Alike

variable {s t : State}

theorem exec (h : Alike s t) (i : Instr) : ResultsAlike (exec i s) (exec i t) := by
  rw [exec_eq_afterCheck, exec_eq_afterCheck, h.checkedValue_eq, h.advances_eq]
  exact ((h.written i).finish _).afterCheck _

theorem gated (h : Alike s t) {r q : Result} (hr : ResultsAlike r q) :
    ResultsAlike (gated s r) (gated t q) := by
  unfold Machine.gated
  rw [h.faultRecord, h.rs]
  split
  · exact .fault _
  · split
    · exact hr
    · exact .next h

theorem step (h : Alike s t) : ResultsAlike (step s) (step t) := by
  refine h.gated ?_
  rw [h.fetchInstr_eq]
  cases fetchInstr t with
  | ok i => exact (h.exec i).endTick
  | error e => exact .fault _

end Alike

/-! ### Commands -/

/-- Two answers of the machine agree: the same reply, and states alike after it. -/
def AnswersAlike (p q : State × Reply) : Prop := p.2 = q.2 ∧ Alike p.1 q.1

namespace Alike

variable {s t : State}

theorem executeCurrent (h : Alike s t) : AnswersAlike (executeCurrent s) (executeCurrent t) := by
  have hstep := h.step
  unfold Machine.executeCurrent
  generalize Machine.step s = r, Machine.step t = q at hstep ⊢
  cases hstep with
  | next h' => exact ⟨rfl, h'⟩
  | fault f => exact ⟨rfl, h.setFaultRecord _⟩
  | refused r => exact ⟨rfl, h⟩

theorem setMemory (h : Alike s t) (a v : Int) : AnswersAlike (setMemory a v s) (setMemory a v t) := by
  unfold Machine.setMemory
  split
  · split
    · exact ⟨rfl, h.writeMem _ v⟩
    · exact ⟨rfl, h⟩
  · exact ⟨rfl, h⟩

theorem obey (h : Alike s t) (c : Command) : AnswersAlike (obey c s) (obey c t) := by
  cases c with
  | snapshot => exact ⟨congrArg Reply.shown (alike_iff.mp h).2.2, h⟩
  | executeCurrent => exact h.executeCurrent
  | pause => exact ⟨rfl, h.pause⟩
  | resume => exact ⟨rfl, h.resume⟩
  | singleStepRequest => exact ⟨rfl, h.singleStepRequest⟩
  | setMemory a v => exact h.setMemory a v
  | softReset => exact ⟨rfl, h.softReset⟩
  | hardReset => exact ⟨rfl, h.hardReset⟩

theorem hostCommand (h : Alike s t) (c : Command) : AnswersAlike (hostCommand c s) (hostCommand c t) := by
  unfold Machine.hostCommand
  rw [h.faultRecord]
  split
  · exact ⟨rfl, h⟩
  · exact h.obey c

end Alike

end Sys2Proof.Machine

/-! PROOFS. The statements of the family about the state. -/

namespace Sys2Proof.Proofs

open Sys2Proof.Machine Sys2Proof.Safety

/-- Settles O38: the writes of each instruction keep the invariant, and the end of a tick writes only IP and RS. -/
theorem tickKeepsTheInvariant : Obligations.TickKeepsTheInvariant := fun _ _ hs ht => hs.step ht

/-- Settles O39, command by command; a faulting tick writes only the record. -/
theorem hostCommandKeepsTheInvariant : Obligations.HostCommandKeepsTheInvariant :=
  fun c _ hs => stateInv_hostCommand c hs

/-- Settles O43: states with equal snapshots, parameter and record are `Alike`, which every command keeps. -/
theorem snapshotDeterminesEveryAnswer : Obligations.SnapshotDeterminesEveryAnswer := by
  intro c s t hcfg hrec hview
  have hst : Alike s t := alike_iff.mpr ⟨hcfg, hrec, hview⟩
  obtain ⟨hreply, hafter⟩ := hst.hostCommand c
  obtain ⟨hcfg', hrec', hview'⟩ := alike_iff.mp hafter
  exact ⟨hreply, hview', hcfg', hrec'⟩

/-- Settles O33: up to IP the next state is `written i s`, which only an STO and a JMP store in. -/
theorem onlyStoAndJmpWriteMemory : Obligations.OnlyStoAndJmpWriteMemory := by
  intro i s t b h hsto hjmp
  obtain ⟨-, n, rfl⟩ := exec_eq_next h
  rw [readMem_setIp, readMem_written s hsto hjmp]

/-- Settles O34: up to IP the next state is `written i s`, read register by register. -/
theorem registersEachInstructionLeavesAlone : Obligations.RegistersEachInstructionLeavesAlone := by
  intro i s t h
  obtain ⟨-, n, rfl⟩ := exec_eq_next h
  exact ⟨written_acc s, written_outr s, written_rs s, written_faultRecord i s, written_cfg i s⟩

/-- Settles O42, by induction on the session: the invariant holds, so no tick adds an UndecodableWord to the record. -/
theorem noHostSessionReachesAnUndecodableWord : Obligations.NoHostSessionReachesAnUndecodableWord := by
  intro cfg cs
  have hstart : StateInv (coldConstruct cfg) ∧ NoUndecodable (coldConstruct cfg) :=
    ⟨stateInv_hardReset _, fun _ => nofun⟩
  exact hostCommands_keeps (P := fun s => StateInv s ∧ NoUndecodable s)
    (fun c s ⟨hinv, hrec⟩ => ⟨stateInv_hostCommand c hinv, noUndecodable_hostCommand c hinv hrec⟩) cs hstart

/-- Settles O40: memory reads as the bootstrap image, whose words are in range. -/
theorem resetMeetsTheInvariant : Obligations.ResetMeetsTheInvariant :=
  ⟨stateInv_resetWith Config.reference, stateInv_resetWith⟩

end Sys2Proof.Proofs

/-! PROOFS. The memory a tick leaves, and what a later tick fetches from it (R53). -/

namespace Sys2Proof.Machine

/-- A tick that executes an instruction leaves the memory that the instruction's writes leave (R85). -/
theorem step_mem {i : Instr} {s t : State} (hrs : s.rs = .running ∨ s.rs = .step) (hi : fetchInstr s = .ok i)
    (ht : step s = .next t) : t.mem = (written i s).mem := by
  obtain ⟨-, ⟨hidle, -⟩ | ⟨-, j, u, hj, hu, rfl⟩⟩ := step_eq_next ht
  · rw [RunState.executes_iff.mpr hrs] at hidle
    cases hidle
  · cases hj.symm.trans hi
    obtain ⟨-, n, rfl⟩ := exec_eq_next hu
    rw [endStep_mem, State.setIp_mem]

/-- An STO's word stands at its operand (R101). -/
theorem readMem_written_sto (a : Addr) (s : State) : (written (.sto a) s).readMem a = s.acc.tmod 1000 :=
  readMem_writeMem_same s a (storedWord s.acc)

/-- A JMP's link stands at address 99 (R143). -/
theorem readMem_written_jmp (a : Addr) (s : State) : (written (.jmp a) s).readMem 99 = (s.ip.val : Int) + 801 :=
  readMem_writeMem_same s linkAddr (linkWord s.ip)

/-- A fetch reads the memory as it stands (R53, R81): any state with the same memory reads that word at its IP. -/
theorem fetchWord_eq_readMem {s u : State} {a : Addr} (hmem : u.mem = s.mem) (hip : u.ip = a) :
    fetchWord u = s.readMem a := by
  rw [fetchWord, hip, readMem_congr a hmem]

end Sys2Proof.Machine

/-! PROOFS. The statements of the family about memory. -/

namespace Sys2Proof.Proofs

open Sys2Proof.Machine

/-- Settles O14: the tick leaves the memory of `written i s`, where the stored word and the link stand, and the fetch
reads that memory. -/
theorem fetchSeesTheLastStore : Obligations.FetchSeesTheLastStore := by
  intro s t u ht hrs hmem
  constructor
  · intro a hi hip
    rw [fetchWord_eq_readMem (hmem.trans (step_mem hrs hi ht)) hip, readMem_written_sto]
  · intro a hi hip
    rw [fetchWord_eq_readMem (hmem.trans (step_mem hrs hi ht)) hip, readMem_written_jmp]

end Sys2Proof.Proofs

/-! PROOFS. The decoder and the encoder: a word is negative, or `encodeFields` of one opcode and one operand, or over
999; what each of the three decodes to, and how the encoder undoes it (R62, R65, R67, R68). -/

namespace Sys2Proof

open Sys2Proof.Laws.EncodeRange (encodeFields_range)

/-! ### The fields of a word -/

/-- The operand field is the remainder of the division that gives the opcode (R62). -/
theorem operandField_eq_tmod (w : Int) : operandField w = w.tmod 100 := by
  rw [operandField, opcodeField, Int.tmod_def, Int.mul_comm]

theorem encodeFields_inj {o p : Digit} {a b : Addr} (h : encodeFields o a = encodeFields p b) : o = p ∧ a = b := by
  have hop := congrArg opcodeField h
  have hoperand := congrArg operandField h
  simp only [opcodeField_encodeFields, operandField_encodeFields] at hop hoperand
  exact ⟨Fin.ext (Int.ofNat_inj.mp hop), Fin.ext (Int.ofNat_inj.mp hoperand)⟩

/-- Every word 0 to 999 has an opcode digit and an operand (R62). -/
theorem exists_eq_encodeFields {w : Int} (h0 : 0 ≤ w) (h999 : w ≤ 999) :
    ∃ (o : Digit) (a : Addr), w = encodeFields o a := by
  refine ⟨⟨w.toNat / 100, by omega⟩, ⟨w.toNat % 100, by omega⟩, ?_⟩
  simp only [encodeFields]
  omega

/-- The three kinds of word (R61, R62, R67). -/
theorem word_cases (w : Int) : w < 0 ∨ (∃ (o : Digit) (a : Addr), w = encodeFields o a) ∨ 999 < w := by
  by_cases hneg : w < 0
  · exact .inl hneg
  · by_cases hover : 999 < w
    · exact .inr (.inr hover)
    · exact .inr (.inl (exists_eq_encodeFields (not_lt.mp hneg) (not_lt.mp hover)))

/-- A three-digit word, as an opcode and an operand of two digits (R62, R68). -/
theorem encodeFields_shiftOperand (d2 d1 d0 : Digit) :
    encodeFields d2 (shiftOperand d1 d0) = 100 * (d2.val : Int) + 10 * (d1.val : Int) + (d0.val : Int) := by
  simp only [encodeFields, shiftOperand]
  omega

/-! ### Decoding -/

theorem decode_of_neg {w : Int} (h : w < 0) : decode w = .ok (.skip w) := if_pos h

/-- Decoding inverts the encoding function (R68). -/
theorem decode_encodeFields (o : Digit) (a : Addr) : decode (encodeFields o a) = .ok (instrOf o a) := by
  have hnonneg : ¬ encodeFields o a < 0 := by
    have := (encodeFields_range o a).1
    omega
  simp [decode, hnonneg, opcodeField_encodeFields, operandField_encodeFields]

/-- A word over 999 has no handler (R67, R83). -/
theorem decode_of_over {w : Int} (h : 999 < w) : decode w = .error (.noHandler w) := by
  have hop : ¬ (opcodeField w).toNat < 10 := by
    rw [opcodeField, Int.tdiv_eq_ediv_of_nonneg (by omega)]
    omega
  exact (if_neg (by omega)).trans (dif_neg hop)

/-- All that a word with an instruction can be: negative, or an opcode and an operand. -/
theorem decode_eq_ok {w : Int} {i : Instr} (h : decode w = .ok i) :
    (w < 0 ∧ i = .skip w) ∨ ∃ (o : Digit) (a : Addr), w = encodeFields o a ∧ i = instrOf o a := by
  obtain hneg | ⟨o, a, rfl⟩ | hover := word_cases w
  · rw [decode_of_neg hneg] at h; cases h
    exact .inl ⟨hneg, rfl⟩
  · rw [decode_encodeFields] at h; cases h
    exact .inr ⟨o, a, rfl, rfl⟩
  · rw [decode_of_over hover] at h; cases h

/-- SFT's operand is its two counts (R64, R68). -/
theorem instrOf_shiftOperand (l r : Digit) : instrOf 4 (shiftOperand l r) = .sft l r := by
  simp only [instrOf, shiftCounts_shiftOperand]

/-! ### Encoding -/

/-- The instruction of an opcode and an operand has the word made of them (R65, R68). -/
theorem encode_instrOf (o : Digit) (a : Addr) : encode (instrOf o a) = encodeFields o a := by
  match o with
  | 4 => exact congrArg (encodeFields 4) (shiftOperand_shiftCounts a)
  | 0 | 1 | 2 | 3 | 5 | 6 | 7 | 8 | 9 => rfl

theorem wellFormed_instrOf (o : Digit) (a : Addr) : (instrOf o a).wellFormed = true := by
  fin_cases o <;> rfl

/-- Every well-formed instruction is a skip of a negative word or the instruction of an opcode and an operand. -/
theorem Instr.wellFormed_cases {i : Instr} (h : i.wellFormed = true) :
    (∃ w : Int, w < 0 ∧ i = .skip w) ∨ ∃ (o : Digit) (a : Addr), i = instrOf o a := by
  cases i with
  | op0 x => exact .inr ⟨0, x, rfl⟩
  | cla a => exact .inr ⟨1, a, rfl⟩
  | add a => exact .inr ⟨2, a, rfl⟩
  | tac a => exact .inr ⟨3, a, rfl⟩
  | sft l r => exact .inr ⟨4, shiftOperand l r, (instrOf_shiftOperand l r).symm⟩
  | out a => exact .inr ⟨5, a, rfl⟩
  | sto a => exact .inr ⟨6, a, rfl⟩
  | sub a => exact .inr ⟨7, a, rfl⟩
  | jmp a => exact .inr ⟨8, a, rfl⟩
  | hlt x => exact .inr ⟨9, x, rfl⟩
  | skip w => exact .inl ⟨w, of_decide_eq_true h, rfl⟩

end Sys2Proof

/-! PROOFS. The tick that fetches a word without a handler (R83). -/

namespace Sys2Proof.Machine

theorem step_of_over {s : State} (hrec : s.faultRecord = none) (hrs : s.rs = .running ∨ s.rs = .step)
    (hover : 999 < s.readMem s.ip) : step s = .fault (.undecodableWord (s.readMem s.ip)) := by
  have hfetch : fetchInstr s = .error (.noHandler (s.readMem s.ip)) := decode_of_over hover
  rw [step, gated_executes hrec (RunState.executes_iff.mpr hrs), hfetch]
  rfl

end Sys2Proof.Machine

/-! PROOFS. The statements of the family about encoding. -/

namespace Sys2Proof.Proofs

open Sys2Proof.Machine Sys2Proof.Safety

/-- Settles O2: a well-formed instruction is a skip or `instrOf` of its fields, and decoding inverts both words. -/
theorem decodeOfEncodeIsTheInstruction : Obligations.DecodeOfEncodeIsTheInstruction := by
  intro i h
  obtain ⟨w, hneg, rfl⟩ | ⟨o, a, rfl⟩ := Instr.wellFormed_cases h
  · exact decode_of_neg hneg
  · rw [encode_instrOf, decode_encodeFields]

/-- Settles O3: a word that decodes is negative or made of two fields, and the encoder gives both back. -/
theorem encodeOfDecodeIsTheWord : Obligations.EncodeOfDecodeIsTheWord := by
  intro w i h
  obtain ⟨hneg, rfl⟩ | ⟨o, a, rfl, rfl⟩ := decode_eq_ok h
  · exact ⟨decide_eq_true hneg, rfl⟩
  · exact ⟨wellFormed_instrOf o a, encode_instrOf o a⟩

/-- Settles O5: the word d2 d1 d0 is `encodeFields` of d2 and the operand d1 d0. -/
theorem fieldsOfAThreeDigitWord : Obligations.FieldsOfAThreeDigitWord := by
  refine ⟨?_, ?_, fun w => decode_of_neg⟩
  · intro d2 d1 d0 w hw
    obtain rfl : w = encodeFields d2 (shiftOperand d1 d0) := hw.trans (encodeFields_shiftOperand d2 d1 d0).symm
    refine ⟨rfl, opcodeField_encodeFields d2 _, rfl, ?_, operandField_eq_tmod _, ?_⟩
    · rw [operandField_encodeFields]; rfl
    · intro a ha
      obtain rfl : a = shiftOperand d1 d0 := Fin.ext ha
      exact decode_encodeFields d2 _
  · intro w h0 h999
    obtain ⟨o, a, rfl⟩ := exists_eq_encodeFields h0 h999
    refine ⟨o, (shiftCounts a).1, (shiftCounts a).2, ?_⟩
    rw [← encodeFields_shiftOperand, shiftOperand_shiftCounts]

/-- Settles O7: each row is `decode_encodeFields` of its opcode, and the fields of a word determine it and are
determined by it. -/
theorem theOpcodeMapIsComplete : Obligations.TheOpcodeMapIsComplete := by
  refine ⟨?_, ?_, ?_, fun w => decode_of_neg⟩
  · intro a
    have hzero : encodeFields 0 a = (a.val : Int) := Int.zero_add _
    exact ⟨hzero ▸ decode_encodeFields 0 a, decode_encodeFields 1 a, decode_encodeFields 2 a,
      decode_encodeFields 3 a, decode_encodeFields 5 a, decode_encodeFields 6 a, decode_encodeFields 7 a,
      decode_encodeFields 8 a, decode_encodeFields 9 a⟩
  · intro l r
    have hword : encodeFields 4 (shiftOperand l r) = 400 + 10 * (l.val : Int) + (r.val : Int) :=
      encodeFields_shiftOperand 4 l r
    rw [← hword, decode_encodeFields, instrOf_shiftOperand]
  · intro w h0 h999
    obtain ⟨o, a, rfl⟩ := exists_eq_encodeFields h0 h999
    refine ⟨(o, a), rfl, ?_⟩
    rintro ⟨p, b⟩ h
    obtain ⟨rfl, rfl⟩ := encodeFields_inj h
    rfl

/-- Settles O8: the three kinds of word, and the tick that fetches the last kind. -/
theorem onlyWordsOver999AreUndecodable : Obligations.OnlyWordsOver999AreUndecodable := by
  refine ⟨fun w => decode_of_neg, ?_, ?_⟩
  · intro w h0 h999
    obtain ⟨o, a, rfl⟩ := exists_eq_encodeFields h0 h999
    exact ⟨o, a, rfl, decode_encodeFields o a⟩
  · rintro w s hover hrec hrs rfl
    exact step_of_over hrec hrs hover

/-- Settles O41: the fetched word is in range and so decodes, and no instruction raises that fault. -/
theorem everyFetchedWordDecodes : Obligations.EveryFetchedWordDecodes := by
  intro s w hinv hrec h
  have hclean : NoUndecodable s := fun v => by simp [hrec]
  exact step_fault_ne_undecodable hinv hclean h w rfl

/-- Settles O1: each word is `encodeFields` of the opcode and the operand written here. -/
theorem wordsOfEveryRowDecode : Obligations.WordsOfEveryRowDecode :=
  ⟨decode_encodeFields 0 0, decode_encodeFields 0 99, decode_encodeFields 1 97, decode_encodeFields 2 98,
    decode_encodeFields 3 18, decode_encodeFields 4 20, decode_encodeFields 5 95, decode_encodeFields 6 95,
    decode_encodeFields 7 51, decode_encodeFields 8 50, decode_encodeFields 9 0, decode_encodeFields 9 99,
    decode_of_neg (by decide)⟩

/-- Settles O4: `decode_encodeFields`, and SFT's operand from its counts. -/
theorem decodeInvertsTheEncodingFunction : Obligations.DecodeInvertsTheEncodingFunction :=
  ⟨fun o a => ⟨rfl, decode_encodeFields o a⟩, fun l r => ⟨rfl, instrOf_shiftOperand l r⟩⟩

/-- Settles O6: the quotient and the remainder by 10 are the counts that the operand joins. -/
theorem shiftCountsAreTheOperandDigits : Obligations.ShiftCountsAreTheOperandDigits := by
  intro a l r hl hr
  have hdigits := Int.mul_tdiv_add_tmod (a.val : Int) 10
  rw [← hl, ← hr] at hdigits
  obtain rfl : a = shiftOperand l r := Fin.ext (by simp only [shiftOperand]; omega)
  exact (decode_encodeFields 4 _).trans (congrArg Except.ok (instrOf_shiftOperand l r))

/-- Settles O30: the handlers of opcodes 0 and 9 do not read the operand (R66). -/
theorem ignoredDigitsChangeNothing : Obligations.IgnoredDigitsChangeNothing := fun _ _ _ => ⟨rfl, rfl⟩

end Sys2Proof.Proofs

/-! PROOFS. The tick in terms of `exec` (R80, R82, R85), the run state it leaves (R86), and that no tick is refused
(R84). -/

namespace Sys2Proof.Machine

/-! ### The tick, by what it fetches -/

section fetched

variable {s : State} (hrec : s.faultRecord = none) (hrs : s.rs = .running ∨ s.rs = .step)

include hrec hrs

theorem step_of_fetched {i : Instr} (hi : fetchInstr s = .ok i) : step s = endTick (exec i s) := by
  rw [step, gated_executes hrec (RunState.executes_iff.mpr hrs), hi]

theorem step_of_undecodable {e : DecodeError} (he : fetchInstr s = .error e) : step s = .fault (faultOf e) := by
  rw [step, gated_executes hrec (RunState.executes_iff.mpr hrs), he]

/-- The tick that fetches a negative word advances, and ends a single step (R82). -/
theorem step_of_neg (hneg : s.readMem s.ip < 0) : step s = endTick (advance s) :=
  step_of_fetched hrec hrs (decode_of_neg hneg)

end fetched

theorem step_of_idle {s : State} (hrec : s.faultRecord = none) (hrun : s.rs ≠ .running) (hstep : s.rs ≠ .step) :
    step s = .next s := by
  have hidle : s.rs.executes = false := by simp [← Bool.not_eq_true, RunState.executes_iff, hrun, hstep]
  exact gated_idle hrec hidle

/-! ### The run state after a tick -/

theorem exec_rs {i : Instr} {s t : State} (h : exec i s = .next t) : t.rs = (written i s).rs := by
  obtain ⟨-, n, rfl⟩ := exec_eq_next h
  rfl

/-- A tick that executes an instruction leaves the run state the instruction writes, but Step becomes Paused (R86). -/
theorem step_rs {i : Instr} {s t : State} (hrs : s.rs = .running ∨ s.rs = .step) (hi : fetchInstr s = .ok i)
    (ht : step s = .next t) : t.rs = if (written i s).rs = .step then .paused else (written i s).rs := by
  obtain ⟨hrec, -⟩ := step_eq_next ht
  rw [step_of_fetched hrec hrs hi] at ht
  obtain ⟨u, hu, rfl⟩ := endTick_eq_next ht
  rw [endStep_rs, exec_rs hu]

/-! ### Refusals: each part of a tick answers one only if what it is given is one -/

theorem finish_ne_refused (b : Bool) (s : State) (r : Refusal) : finish b s ≠ .refused r := by
  cases b with
  | false => nofun
  | true =>
    obtain ⟨n, -, e⟩ | ⟨-, e⟩ := advance_cases s
    · exact ne_of_eq_of_ne e nofun
    · exact ne_of_eq_of_ne e nofun

section refusals

variable {q : Result} {r : Refusal} (hq : q ≠ .refused r)

include hq

theorem afterCheck_ne_refused (c : Option Int) : afterCheck c q ≠ .refused r := by
  cases c with
  | none => exact hq
  | some v =>
    simp only [afterCheck, withChecked]
    split
    · exact hq
    · nofun

theorem endTick_ne_refused : endTick q ≠ .refused r := by
  cases q with
  | next s => nofun
  | fault f => nofun
  | refused p => exact hq

theorem gated_ne_refused (s : State) : gated s q ≠ .refused r := by
  unfold gated
  split
  · nofun
  · split
    · exact hq
    · nofun

end refusals

theorem exec_ne_refused (i : Instr) (s : State) (r : Refusal) : exec i s ≠ .refused r := by
  rw [exec_eq_afterCheck]
  exact afterCheck_ne_refused (finish_ne_refused _ _ r) _

theorem step_ne_refused (s : State) (r : Refusal) : step s ≠ .refused r := by
  refine gated_ne_refused ?_ s
  cases fetchInstr s with
  | ok i => exact endTick_ne_refused (exec_ne_refused i s r)
  | error e => nofun

end Sys2Proof.Machine

/-! PROOFS. The statements of the family about the tick. -/

namespace Sys2Proof.Proofs

open Sys2Proof.Machine

/-- Settles O11: `step_rs`, where a HLT writes Halted and every other instruction leaves RS as it was. -/
theorem singleStepEndsAfterOneTick : Obligations.SingleStepEndsAfterOneTick := by
  intro s t i hi ht
  refine ⟨?_, fun hrs hhlt => ?_, fun hrs hhlt => ?_⟩
  · rintro hrs ⟨x, rfl⟩
    exact step_rs hrs hi ht
  · simpa [written_rs s hhlt, hrs] using step_rs (.inr hrs) hi ht
  · simpa [written_rs s hhlt, hrs] using step_rs (.inl hrs) hi ht

/-- Settles O37: no instruction is refused, and neither the gate nor the end of a tick adds a refusal. -/
theorem noTickIsRefused : Obligations.NoTickIsRefused := step_ne_refused

/-- Settles O9: the tick by what it fetches, and the idle tick. -/
theorem stepRunsTheDecodedInstruction : Obligations.StepRunsTheDecodedInstruction := by
  intro s hrec
  refine ⟨fun hrs i hi => ?_, fun hrs w hw => step_of_undecodable hrec hrs hw, ?_⟩
  · rw [step_of_fetched hrec hrs hi]
    cases exec i s with
    | next t => rfl
    | fault f => rfl
    | refused r => rfl
  · rintro (hrs | hrs)
    · exact step_of_idle hrec (by simp [hrs]) (by simp [hrs])
    · exact step_of_idle hrec (by simp [hrs]) (by simp [hrs])

/-- Settles O10: the gate of a tick (R80). -/
theorem tickIsANoOpUnlessRunningOrStep : Obligations.TickIsANoOpUnlessRunningOrStep := fun _ => step_of_idle

/-- Settles O12: the tick is `adv()` and the end of a single step, and `adv()` faults at 99 only. -/
theorem negativeWordIsSkipped : Obligations.NegativeWordIsSkipped := by
  refine ⟨fun w s n hn => advance_next hn, fun s n hrec hneg hn => ⟨fun hrs => ?_, fun hrs => ?_⟩, ?_⟩
  · rw [step_of_neg hrec (.inl hrs) hneg, advance_next hn]
    simp [endTick, endStep, hrs, State.setIp]
  · rw [step_of_neg hrec (.inr hrs) hneg, advance_next hn]
    simp [endTick, endStep, hrs, State.setIp, State.setRs]
  · intro s hrec hneg hrs hip
    rw [step_of_neg hrec hrs hneg, advance_fault hip]
    rfl

end Sys2Proof.Proofs

/-! PROOFS. An instruction that ends in `adv()` and passes its check: it answers what it has written with IP at the next
address, or IpOverflow at 99 (R88). -/

namespace Sys2Proof.Machine

open Sys2Proof.Safety

section advancing

variable {i : Instr} {s : State} (hcheck : (checkedValue i s).all accFits = true) (hadv : advances i s = true)

include hcheck hadv

/-- All that such an instruction does: its writes, then `adv()`. -/
theorem exec_eq_advance : exec i s = advance (written i s) := by
  rw [exec_eq_afterCheck, hadv]
  cases hc : checkedValue i s with
  | none => rfl
  | some v =>
    rw [hc] at hcheck
    exact withChecked_pass (k := fun _ => advance (written i s)) hcheck

theorem exec_next {n : Addr} (hn : n.val = (written i s).ip.val + 1) :
    exec i s = .next ((written i s).setIp n) := by
  rw [exec_eq_advance hcheck hadv, advance_next hn]

theorem exec_ipOverflow (hip : (written i s).ip = 99) : exec i s = .fault .ipOverflow := by
  rw [exec_eq_advance hcheck hadv, advance_fault hip]

end advancing

end Sys2Proof.Machine

/-! PROOFS. The word an STO stores, and the STO that changes no word (R101, R103). -/

namespace Sys2Proof.Machine

/-- The remainder of a value that is not positive is not positive (R9). -/
theorem tmod_nonpos {v : Int} (m : Int) (h : v ≤ 0) : v.tmod m ≤ 0 := by
  have hneg : 0 ≤ (-v).tmod m := Int.tmod_nonneg m (neg_nonneg.mpr h)
  rwa [Int.neg_tmod, neg_nonneg] at hneg

/-- A word is its own low three digits. -/
theorem storedWord_of_fits {v : Int} (h : wordFits v = true) : storedWord v = v := by
  rw [wordFits_iff] at h
  simp only [storedWord, stoMod]
  obtain hv | hv := le_total 0 v
  · exact Int.tmod_eq_of_lt hv (by omega)
  · have hneg : (-v).tmod 1000 = -v := Int.tmod_eq_of_lt (neg_nonneg.mpr hv) (by omega)
    rwa [Int.neg_tmod, neg_inj] at hneg

/-- An STO of the word that already stands at its operand changes no word. -/
theorem readMem_written_sto_of_acc {s : State} {a : Addr} (hacc : s.acc = s.readMem a)
    (hfits : wordFits (s.readMem a) = true) (b : Addr) : (written (.sto a) s).readMem b = s.readMem b := by
  by_cases hba : b = a
  · rw [hba, readMem_written_sto, hacc]
    exact storedWord_of_fits hfits
  · exact readMem_writeMem_other s _ hba

end Sys2Proof.Machine

/-! PROOFS. The statements of the family about load, store and output. -/

namespace Sys2Proof.Proofs

open Sys2Proof.Machine

/-- Settles O16: up to IP the next state is `written (.sto a) s`, and the remainder keeps the sign of ACC. -/
theorem stoStoresThreeDigitsWithTheSign : Obligations.StoStoresThreeDigitsWithTheSign := by
  intro s a
  refine ⟨decode_encodeFields 6 a, fun n hn => ?_, exec_ipOverflow (i := .sto a) rfl rfl, ?_,
    Int.tmod_nonneg 1000, tmod_nonpos 1000⟩
  · exact ⟨(written (.sto a) s).setIp n, exec_next rfl rfl hn, readMem_written_sto a s,
      fun b hb => readMem_writeMem_other s _ hb, rfl, rfl, rfl, rfl, rfl, rfl, decode_of_neg⟩
  · exact abs_le.mpr (wordFits_iff.mp (storedWord_fits s.acc))

/-- Settles O18: CLA leaves memory alone and puts the word in ACC, and STO stores that word where it stands. -/
theorem claThenStoChangesNoWord : Obligations.ClaThenStoChangesNoWord := by
  intro s a n hlo hhi hn
  have hmid : s.ip.val + 1 < 100 := by omega
  have hload : exec (.cla a) s = .next ((written (.cla a) s).setIp ⟨s.ip.val + 1, hmid⟩) := exec_next rfl rfl rfl
  refine ⟨_, _, hload, exec_next rfl rfl hn, ?_, rfl, rfl⟩
  exact readMem_written_sto_of_acc (s := (written (.cla a) s).setIp _) rfl (wordFits_iff.mpr ⟨hlo, hhi⟩)

/-- Settles O15: CLA has no check, writes ACC alone, and advances. -/
theorem claLoadsItsWord : Obligations.ClaLoadsItsWord := fun _ a =>
  ⟨decode_encodeFields 1 a, fun _ hn => exec_next (i := .cla a) rfl rfl hn, exec_ipOverflow (i := .cla a) rfl rfl⟩

/-- Settles O17: OUT has no check, writes OUTR alone, and advances. -/
theorem outShowsItsWord : Obligations.OutShowsItsWord := fun _ a =>
  ⟨decode_encodeFields 5 a, fun _ hn => exec_next (i := .out a) rfl rfl hn, exec_ipOverflow (i := .out a) rfl rfl⟩

end Sys2Proof.Proofs

/-! PROOFS. An instruction that checks a value, puts a result in ACC and advances: ADD, SUB and SFT (R11, R88, R185). -/

namespace Sys2Proof.Machine

open Sys2Proof.Safety

theorem accFits_eq_false_iff {v : Int} : accFits v = false ↔ v < -(2 ^ 63) ∨ 2 ^ 63 - 1 < v := by
  rw [← Bool.not_eq_true, accFits_iff, not_and_or, not_le, not_le]

section checked

variable {i : Instr} {s : State} {v : Int} (hcheck : checkedValue i s = some v)

include hcheck

/-- The check comes before `adv()`, so AccOverflow comes before IpOverflow (R185). -/
theorem exec_accOverflow (hout : v < -(2 ^ 63) ∨ 2 ^ 63 - 1 < v) : exec i s = .fault .accOverflow := by
  rw [exec_eq_afterCheck, hcheck]
  exact withChecked_fail (k := fun _ => _) (accFits_eq_false_iff.mpr hout)

variable (hlo : -(2 ^ 63) ≤ v) (hhi : v ≤ 2 ^ 63 - 1)

include hlo hhi

theorem checkedValue_all_fits : (checkedValue i s).all accFits = true := by
  rw [hcheck]
  exact accFits_iff.mpr ⟨hlo, hhi⟩

variable (hadv : advances i s = true) {w : Int} (hwritten : written i s = s.setAcc w)

include hadv hwritten

/-- With its check passed, such an instruction changes ACC and IP and nothing else. -/
theorem exec_checked_next {n : Addr} (hn : n.val = s.ip.val + 1) :
    exec i s = .next { s with acc := w, ip := n } := by
  have hip : n.val = (written i s).ip.val + 1 := by rwa [hwritten]
  rw [exec_next (checkedValue_all_fits hcheck hlo hhi) hadv hip, hwritten]
  rfl

theorem exec_checked_ipOverflow (hip : s.ip = 99) : exec i s = .fault .ipOverflow :=
  exec_ipOverflow (checkedValue_all_fits hcheck hlo hhi) hadv (by rwa [hwritten])

end checked

end Sys2Proof.Machine

/-! PROOFS. SFT's reduction loop and right shift in closed form, and their signs (R9, R122 to R124). -/

namespace Sys2Proof.Machine

theorem abs_tmod_sftMod_le (t : Int) : |t.tmod 10000| ≤ 9999 := by
  rw [abs_le, Int.tmod_eq_emod]
  split <;> omega

/-- A value of at most four digits is its own remainder, whatever its sign (R9). -/
theorem tmod_sftMod_of_le {t : Int} (h : |t| ≤ 9999) : t.tmod 10000 = t := by
  rw [abs_le] at h
  rw [Int.tmod_eq_emod]
  split <;> omega

/-- A value of at most four digits does not enter the loop. -/
theorem reduceRounds_of_le (n : Nat) {t : Int} (h : |t| ≤ 9999) : reduceRounds n t = t := by
  cases n with
  | zero => rfl
  | succ n => exact if_neg (not_lt.mpr h)

/-- One round leaves a value that does not enter the loop again (R124). -/
theorem reduceRounds_succ (n : Nat) (t : Int) : reduceRounds (n + 1) t = t.tmod 10000 := by
  by_cases h : 9999 < |t|
  · exact (if_pos h).trans (reduceRounds_of_le n (abs_tmod_sftMod_le t))
  · rw [reduceRounds_of_le _ (not_lt.mp h), tmod_sftMod_of_le (not_lt.mp h)]

theorem shiftRight_eq (p : Int) (r : Digit) : shiftRight p r = (p.tdiv (10 ^ r.val)).tmod 10000 :=
  reduceRounds_succ 0 _

theorem shiftRight_nonneg {p : Int} (r : Digit) (h : 0 ≤ p) : 0 ≤ shiftRight p r := by
  rw [shiftRight_eq]
  exact Int.tmod_nonneg 10000 (Int.tdiv_nonneg h (pow10_pos r).le)

theorem shiftRight_nonpos {p : Int} (r : Digit) (h : p ≤ 0) : shiftRight p r ≤ 0 := by
  have hdiv : p.tdiv (pow10 r) ≤ 0 := (Int.tdiv_le_tdiv (pow10_pos r) h).trans_eq (Int.zero_tdiv _)
  rw [shiftRight_eq]
  exact tmod_nonpos 10000 hdiv

/-- What a completed SFT leaves in ACC (R122). -/
theorem exec_sft_acc {l r : Digit} {s t : State} (h : exec (.sft l r) s = .next t) :
    t.acc = shiftRight (s.acc * pow10 l) r := by
  obtain ⟨-, n, rfl⟩ := exec_eq_next h
  rfl

end Sys2Proof.Machine

/-! PROOFS. The statements of the family about arithmetic. -/

namespace Sys2Proof.Proofs

open Sys2Proof.Machine Sys2Proof.Safety

/-- Settles O21: SFT checks the product and puts `shiftRight` of it in ACC, which is `t` or its remainder. -/
theorem sftMultipliesDividesReduces : Obligations.SftMultipliesDividesReduces := by
  rintro s l r p t rfl rfl
  obtain ⟨-, hdecode, -, -⟩ := theOpcodeMapIsComplete
  have hcheck : checkedValue (.sft l r) s = some (s.acc * 10 ^ l.val) := rfl
  have hwritten : written (.sft l r) s = s.setAcc (((s.acc * 10 ^ l.val).tdiv (10 ^ r.val)).tmod 10000) :=
    congrArg s.setAcc (shiftRight_eq _ r)
  refine ⟨hdecode l r, fun hlo hhi => ⟨fun n hn => ⟨fun hsmall => ?_, fun _ => ?_⟩, ?_⟩,
    exec_accOverflow hcheck, abs_tmod_sftMod_le _⟩
  · rw [tmod_sftMod_of_le hsmall] at hwritten
    exact exec_checked_next hcheck hlo hhi rfl hwritten hn
  · exact exec_checked_next hcheck hlo hhi rfl hwritten hn
  · exact exec_checked_ipOverflow hcheck hlo hhi rfl hwritten

/-- Settles O22: one round is the remainder, which is its own remainder, and SFT's reduction is one round. -/
theorem reductionLoopIsOneRemainder : Obligations.ReductionLoopIsOneRemainder := by
  refine ⟨fun t n => ⟨reduceRounds_succ n t, ?_, fun h => ⟨reduceRounds_of_le n h, tmod_sftMod_of_le h⟩⟩, ?_⟩
  · rw [reduceRounds_succ]
    exact abs_tmod_sftMod_le t
  · intro s t l r h
    exact (exec_sft_acc h).trans (shiftRight_eq _ r)

/-- Settles O23: the reduction bounds ACC, and neither the shifts nor the reduction changes its sign (R9). -/
theorem sftLeavesFourDigitsAndTheSign : Obligations.SftLeavesFourDigitsAndTheSign := by
  intro s t l r h
  rw [exec_sft_acc h]
  exact ⟨abs_sftReduce_le _, fun hacc => shiftRight_nonneg r (mul_nonneg hacc (pow10_pos l).le),
    fun hacc => shiftRight_nonpos r (mul_nonpos_of_nonpos_of_nonneg hacc (pow10_pos l).le)⟩

/-- Settles O19: ADD checks the sum and puts it in ACC. -/
theorem addIsExactOrFaults : Obligations.AddIsExactOrFaults := fun _ a =>
  ⟨decode_encodeFields 2 a, fun hlo hhi =>
    ⟨fun _ => exec_checked_next (i := .add a) rfl hlo hhi rfl rfl,
      exec_checked_ipOverflow (i := .add a) rfl hlo hhi rfl rfl⟩,
    exec_accOverflow (i := .add a) rfl⟩

/-- Settles O20: SUB checks the difference and puts it in ACC. -/
theorem subIsExactOrFaults : Obligations.SubIsExactOrFaults := fun _ a =>
  ⟨decode_encodeFields 7 a, fun hlo hhi =>
    ⟨fun _ => exec_checked_next (i := .sub a) rfl hlo hhi rfl rfl,
      exec_checked_ipOverflow (i := .sub a) rfl hlo hhi rfl rfl⟩,
    exec_accOverflow (i := .sub a) rfl⟩

end Sys2Proof.Proofs

/-! PROOFS. Where an instruction takes IP (R88, R145): one that advances goes to the next word, and the others (opcode 0
without OP0_ADVANCE, a TAC taken, JMP, HLT) answer exactly what they have written. -/

namespace Sys2Proof.Machine

open Sys2Proof.Safety

/-- The instructions that do not call `adv()`, each with its condition (R88). -/
theorem advances_eq_false {i : Instr} {s : State} (h : advances i s = false) :
    (∃ x, i = .op0 x ∧ s.cfg.op0Advance = false) ∨ (∃ a, i = .tac a ∧ s.acc < 0) ∨ (∃ a, i = .jmp a) ∨
      ∃ x, i = .hlt x := by
  cases i with
  | op0 x => exact .inl ⟨x, rfl, h⟩
  | tac a => exact .inr (.inl ⟨a, rfl, not_le.mp (of_decide_eq_false h)⟩)
  | jmp a => exact .inr (.inr (.inl ⟨a, rfl⟩))
  | hlt x => exact .inr (.inr (.inr ⟨x, rfl⟩))
  | _ => cases h

/-- None of them has a value to check (R11). -/
theorem checkedValue_of_not_advances {i : Instr} {s : State} (h : advances i s = false) :
    checkedValue i s = none := by
  obtain ⟨x, rfl, -⟩ | ⟨a, rfl, -⟩ | ⟨a, rfl⟩ | ⟨x, rfl⟩ := advances_eq_false h <;> rfl

theorem exec_of_not_advances {i : Instr} {s : State} (h : advances i s = false) :
    exec i s = .next (written i s) := by
  rw [exec_eq_afterCheck, checkedValue_of_not_advances h, h]
  rfl

theorem advances_tac_of_neg {s : State} (a : Addr) (h : s.acc < 0) : advances (.tac a) s = false :=
  decide_eq_false (not_le.mpr h)

theorem advances_tac_of_nonneg {s : State} (a : Addr) (h : 0 ≤ s.acc) : advances (.tac a) s = true :=
  decide_eq_true h

/-- A TAC that is taken writes its target to IP (R141). -/
theorem written_tac_of_neg {s : State} (a : Addr) (h : s.acc < 0) : written (.tac a) s = s.setIp a :=
  congrArg s.setIp (if_pos (accNegative_iff.mpr h))

/-- A TAC that is not taken writes nothing (R141). -/
theorem written_tac_of_nonneg {s : State} (a : Addr) (h : 0 ≤ s.acc) : written (.tac a) s = s :=
  congrArg s.setIp (if_neg (mt accNegative_iff.mp (not_lt.mpr h)))

/-- An instruction that advances does so from its own address: none of its writes is to IP. -/
theorem written_ip_of_advances {i : Instr} {s : State} (h : advances i s = true) : (written i s).ip = s.ip := by
  cases i with
  | tac a => rw [written_tac_of_nonneg a (of_decide_eq_true h)]
  | jmp a => cases h
  | hlt x => cases h
  | _ => rfl

/-- The next IP of an instruction that advances (R88). -/
theorem exec_ip_of_advances {i : Instr} {s t : State} (hadv : advances i s = true) (h : exec i s = .next t) :
    t.ip.val = s.ip.val + 1 := by
  rw [exec_eq_afterCheck, hadv] at h
  obtain ⟨-, hfinish⟩ := afterCheck_eq_next h
  obtain ⟨n, hn, rfl⟩ := advance_eq_next hfinish
  rwa [written_ip_of_advances hadv] at hn

end Sys2Proof.Machine

/-! PROOFS. The tick on a word whose instruction does not advance, and the link word as an instruction (R86, R143). -/

namespace Sys2Proof.Machine

open Sys2Proof.Safety

theorem endStep_of_step {s : State} (h : s.rs = .step) : endStep s = s.setRs .paused := if_pos h

theorem endStep_of_ne_step {s : State} (h : s.rs ≠ .step) : endStep s = s := if_neg h

section notAdvancing

variable {o : Digit} {a : Addr} {s : State} (hrec : s.faultRecord = none) (hrs : s.rs = .running ∨ s.rs = .step)
  (hword : s.readMem s.ip = encodeFields o a) (hadv : advances (instrOf o a) s = false)

include hrec hrs hword hadv

theorem step_of_not_advances : step s = .next (endStep (written (instrOf o a) s)) := by
  have hfetch : fetchInstr s = .ok (instrOf o a) := (congrArg decode hword).trans (decode_encodeFields o a)
  rw [step_of_fetched hrec hrs hfetch, exec_of_not_advances hadv]
  rfl

/-- Where the instruction does not leave Step behind, the tick ends with what the instruction has written. -/
theorem step_eq_written (hrs' : (written (instrOf o a) s).rs ≠ .step) :
    step s = .next (written (instrOf o a) s) := by
  rw [step_of_not_advances hrec hrs hword hadv, endStep_of_ne_step hrs']

end notAdvancing

/-- The tick of a running machine on the word of a JMP. -/
theorem step_jmp {s : State} {a : Addr} (hrec : s.faultRecord = none) (hrs : s.rs = .running)
    (hword : s.readMem s.ip = encodeFields 8 a) : step s = .next (written (.jmp a) s) :=
  step_eq_written hrec (.inl hrs) hword rfl (ne_of_eq_of_ne hrs nofun)

/-- The tick of a running machine on the word of a TAC that is taken. -/
theorem step_tac_of_neg {s : State} {a : Addr} (hrec : s.faultRecord = none) (hrs : s.rs = .running)
    (hword : s.readMem s.ip = encodeFields 3 a) (hneg : s.acc < 0) : step s = .next (s.setIp a) := by
  rw [← written_tac_of_neg a hneg]
  exact step_eq_written hrec (.inl hrs) hword (advances_tac_of_neg a hneg) (ne_of_eq_of_ne hrs nofun)

/-- The link of a JMP below address 99 is the word of a JMP to the next address (R143). -/
theorem link_eq_encodeFields {a n : Addr} (hn : n.val = a.val + 1) : (a.val : Int) + 801 = encodeFields 8 n := by
  have hop : ((8 : Digit).val : Int) = 8 := rfl
  rw [encodeFields, hop]
  omega

end Sys2Proof.Machine

/-! PROOFS. The statements of the family about control. -/

namespace Sys2Proof.Proofs

open Sys2Proof.Machine Sys2Proof.Safety

/-- Settles O27: the next state is `written (.jmp a) s`, and the link is the word of opcode 8, or at 99 of opcode 9. -/
theorem jmpLinksThroughWord99 : Obligations.JmpLinksThroughWord99 := by
  intro s a
  have hframe : ∀ b : Addr, b ≠ 99 → (written (.jmp a) s).readMem b = s.readMem b :=
    fun b hb => readMem_written s nofun fun _ _ => hb
  have hfetch : a = 99 → fetchWord (written (.jmp a) s) = (s.ip.val : Int) + 801 :=
    fun ha => (fetchWord_eq_readMem rfl ha).trans (readMem_written_jmp a s)
  refine ⟨decode_encodeFields 8 a, ⟨written (.jmp a) s, rfl, readMem_written_jmp a s, hframe, rfl, rfl, rfl, rfl, rfl,
    rfl, hfetch⟩, by omega, by omega, fun n hn => ?_, fun hip => ?_⟩
  · rw [link_eq_encodeFields hn]
    exact decode_encodeFields 8 n
  · rw [hip]
    exact decode_encodeFields 9 0

/-- Settles O31: the first tick jumps to its own link, which is the JMP to the next address; that second JMP is at 99,
so it leaves the link 900. -/
theorem jmpToTheLinkCellComesBackToItself : Obligations.JmpToTheLinkCellComesBackToItself := by
  intro s n hrec hrs hword hn
  have hlink : (written (.jmp 99) s).readMem 99 = (s.ip.val : Int) + 801 := readMem_written_jmp 99 s
  exact ⟨written (.jmp 99) s, written (.jmp n) (written (.jmp 99) s), step_jmp hrec hrs hword, rfl, hlink,
    step_jmp hrec hrs (hlink.trans (link_eq_encodeFields hn)), rfl, readMem_written_jmp n _⟩

/-- Settles O32: the first tick moves IP alone, to the link cell, and the link is a JMP to the next address. -/
theorem takenTac99ReturnsThroughTheLink : Obligations.TakenTac99ReturnsThroughTheLink := by
  intro s k n hrec hrs hword hneg hlink hn
  exact ⟨s.setIp 99, written (.jmp n) (s.setIp 99), step_tac_of_neg hrec hrs hword hneg, rfl,
    step_jmp hrec hrs (hlink.trans (link_eq_encodeFields hn)), rfl⟩

/-- Settles O35: an instruction that advances goes to the next word, and each of the four that do not answers what it
has written. -/
theorem ipGoesToNextTargetZeroOrStays : Obligations.IpGoesToNextTargetZeroOrStays := by
  intro i s t h
  cases hadv : advances i s with
  | true => exact .inl ⟨rfl, exec_ip_of_advances hadv h⟩
  | false =>
    rw [exec_of_not_advances hadv] at h
    cases h
    obtain ⟨x, rfl, hcfg⟩ | ⟨a, rfl, hneg⟩ | ⟨a, rfl⟩ | ⟨x, rfl⟩ := advances_eq_false hadv
    · exact .inr (.inr (.inr (.inr ⟨x, rfl, hcfg, rfl⟩)))
    · exact .inr (.inl ⟨a, rfl, hneg, congrArg State.ip (written_tac_of_neg a hneg)⟩)
    · exact .inr (.inr (.inl ⟨a, rfl, rfl⟩))
    · exact .inr (.inr (.inr (.inl ⟨x, rfl, rfl⟩)))

/-- Settles O24: opcode 0 writes nothing, and the parameter says whether it advances. -/
theorem opcodeZeroFollowsItsParameter : Obligations.OpcodeZeroFollowsItsParameter := by
  intro s x
  have hzero : encodeFields 0 x = (x.val : Int) := Int.zero_add _
  refine ⟨hzero ▸ decode_encodeFields 0 x, exec_of_not_advances (i := .op0 x),
    fun hadv _ => exec_next (i := .op0 x) rfl hadv, exec_ipOverflow (i := .op0 x) rfl,
    fun hadv hrec hword => ⟨fun hrs => ?_, fun hrs => ?_⟩⟩
  · exact step_eq_written hrec (.inl hrs) (hword.trans hzero.symm) hadv (ne_of_eq_of_ne hrs nofun)
  · exact (step_of_not_advances hrec (.inr hrs) (hword.trans hzero.symm) hadv).trans
      (congrArg Host.Outcome.next (endStep_of_step hrs))

/-- Settles O26: a TAC taken writes its target and does not advance; one not taken writes nothing and advances. -/
theorem tacBranchesOnlyOnNegative : Obligations.TacBranchesOnlyOnNegative := by
  intro s a
  refine ⟨decode_encodeFields 3 a, fun hneg => ?_, fun hacc n hn => ?_, fun hacc hip => ?_⟩
  · rw [exec_of_not_advances (advances_tac_of_neg a hneg), written_tac_of_neg a hneg]
    rfl
  · rw [exec_eq_advance rfl (advances_tac_of_nonneg a hacc), written_tac_of_nonneg a hacc, advance_next hn]
    rfl
  · rw [exec_eq_advance rfl (advances_tac_of_nonneg a hacc), written_tac_of_nonneg a hacc, advance_fault hip]

/-- Settles O28: HLT writes IP and RS and does not advance, and Halted is not Step, so the tick ends there. -/
theorem hltResetsIpAndHalts : Obligations.HltResetsIpAndHalts := fun s x =>
  ⟨decode_encodeFields 9 x, exec_of_not_advances (i := .hlt x) (s := s) rfl,
    fun hrec hrs hword => step_eq_written (o := 9) (a := x) hrec hrs hword rfl nofun⟩

end Sys2Proof.Proofs

/-! PROOFS. The tick that brings RS to Halted, and the idle tick as a command (R80, R86, R144). -/

namespace Sys2Proof.Machine

/-- The end of a tick neither brings RS to Halted nor takes it out of it (R86). -/
theorem endStep_rs_eq_halted {s : State} : (endStep s).rs = .halted ↔ s.rs = .halted := by
  rw [endStep_rs]
  split
  · next hstep => simp [hstep]
  · rfl

/-- No instruction but HLT writes Halted (R144). -/
theorem eq_hlt_of_exec_halted {i : Instr} {s t : State} (h : exec i s = .next t) (hs : s.rs ≠ .halted)
    (ht : t.rs = .halted) : ∃ x, i = .hlt x := by
  by_contra hne
  rw [exec_rs h, written_rs s (not_exists.mp hne)] at ht
  exact hs ht

/-- A tick in Paused or Halted, as a command: nothing (R80). -/
theorem executeCurrent_of_idle {s : State} (hrec : s.faultRecord = none) (hrs : s.rs = .paused ∨ s.rs = .halted) :
    executeCurrent s = (s, .none) := by
  have hrun : s.rs ≠ .running := by intro h; simp [h] at hrs
  have hstep : s.rs ≠ .step := by intro h; simp [h] at hrs
  exact executeCurrent_next (step_of_idle hrec hrun hstep)

end Sys2Proof.Machine

/-! PROOFS. What `set_memory` rejects, and the words of a memory image (R165, R166). -/

namespace Sys2Proof.Machine

/-- `set_memory` of another address or value is rejected (R166). -/
theorem setMemory_illegal (s : State) {a v : Int} (h : a < 0 ∨ 99 < a ∨ v < -999 ∨ 999 < v) :
    setMemory a v s = (s, .rejected) := by
  obtain ⟨hv, b, rfl, -⟩ | e := setMemory_cases a v s
  · rw [wordFits_iff] at hv
    omega
  · exact e

@[simp] theorem memoryImage_length (s : State) : (memoryImage s).length = 100 := by
  simp [memoryImage]

@[simp] theorem memoryImage_getElem? (s : State) (a : Addr) : (memoryImage s)[a.val]? = some (s.readMem a) := by
  simp [memoryImage]

end Sys2Proof.Machine

/-! PROOFS. The statements of the family about the lifecycle and the host's commands. -/

namespace Sys2Proof.Proofs

open Sys2Proof.Machine

/-- Settles O13: the idle tick leaves RS as it was, the end of a tick brings none to Halted, and among the
instructions only HLT does, which puts IP at 0. -/
theorem onlyHaltEndsARun : Obligations.OnlyHaltEndsARun := by
  intro s t ht hs hhalted
  obtain ⟨hrec, ⟨-, rfl⟩ | ⟨-, i, u, hi, hu, rfl⟩⟩ := step_eq_next ht
  · exact absurd hhalted hs
  · obtain ⟨x, rfl⟩ := eq_hlt_of_exec_halted hu hs (endStep_rs_eq_halted.mp hhalted)
    cases hu
    exact ⟨⟨x, hi⟩, rfl, hhalted, hrec⟩

/-- Settles O47: each command that moves RS is one write of RS, and the columns of a tick are O11's. -/
theorem runStateTransitionTable : Obligations.RunStateTransitionTable := by
  intro s hrec
  simp only [hostCommand_obey hrec]
  refine ⟨congrArg State.rs (pause_eq_setRs s), congrArg State.rs (resume_eq_setRs s),
    congrArg State.rs (singleStepRequest_eq_setRs s), rfl, rfl, executeCurrent_of_idle hrec, fun t i hi ht => ?_⟩
  obtain ⟨hhlt, hstep, hrun⟩ := singleStepEndsAfterOneTick s t i hi ht
  exact ⟨executeCurrent_next ht, hhlt, hrun, hstep⟩

/-- Settles O48: a legal call is `writeMem`, whose reads and frame are known, and any other is rejected. -/
theorem setMemoryWritesLegalWordsOnly : Obligations.SetMemoryWritesLegalWordsOnly := by
  refine ⟨fun s a v hlo hhi => ?_, fun s a v h => ⟨setMemory_illegal s h, fun hrec => ?_⟩⟩
  · have hset : setMemory (a.val : Int) v s = (s.writeMem a v, .ok) :=
      setMemory_legal s a (wordFits_iff.mpr ⟨hlo, hhi⟩)
    exact ⟨s.writeMem a v, hset, readMem_writeMem_same s a v, fun b hb => readMem_writeMem_other s v hb, rfl, rfl, rfl,
      rfl, rfl, rfl, fun hrec => (hostCommand_obey hrec).trans hset⟩
  · exact (hostCommand_obey hrec).trans (setMemory_illegal s h)

/-- Settles O44: the two branches of `pause`, and the command. -/
theorem pauseStopsOnlyRunning : Obligations.PauseStopsOnlyRunning :=
  fun _ => ⟨fun hrun => if_pos hrun, fun hrun => if_neg hrun, hostCommand_obey⟩

/-- Settles O45: the two branches of `resume`, and the command. -/
theorem resumeLeavesOnlyPaused : Obligations.ResumeLeavesOnlyPaused :=
  fun _ => ⟨fun hpaused => if_pos hpaused, fun hpaused => if_neg hpaused, hostCommand_obey⟩

/-- Settles O46: the two branches of `singleStepRequest`, where Running and Step are neither Paused nor Halted, and the
command. -/
theorem singleStepRequestArmsPausedAndHalted : Obligations.SingleStepRequestArmsPausedAndHalted := by
  refine fun s => ⟨fun hrs => if_pos hrs, fun hrs => if_neg ?_, hostCommand_obey⟩
  obtain hrun | hstep := hrs
  · simp [hrun]
  · simp [hstep]

/-- Settles O52: the view is `snapshot s`, whose memory is the image of the 100 words. -/
theorem snapshotShowsTheFiveComponents : Obligations.SnapshotShowsTheFiveComponents :=
  fun s hrec => ⟨snapshot s, hostCommand_obey hrec, rfl, rfl, rfl, rfl, memoryImage_length s, memoryImage_getElem? s⟩

end Sys2Proof.Proofs

/-! PROOFS. Exactly when an instruction faults (R88, R182, R185), and what a word without an instruction is (R83). -/

namespace Sys2Proof.Machine

open Sys2Proof.Safety

/-- Where a fault behind a check comes from: the value failed, or it passed and the result is the fault. -/
theorem afterCheck_fault_cases {c : Option Int} {r : Result} {f : Fault} (h : afterCheck c r = .fault f) :
    (f = .accOverflow ∧ ∃ v, c = some v ∧ accFits v = false) ∨
      ((∀ v, c = some v → accFits v = true) ∧ r = .fault f) := by
  cases c with
  | none => exact .inr ⟨nofun, h⟩
  | some v =>
    cases hv : accFits v with
    | false =>
      cases (withChecked_fail (k := fun _ => r) hv).symm.trans h
      exact .inl ⟨rfl, v, rfl, hv⟩
    | true =>
      exact .inr ⟨fun w hw => Option.some.inj hw ▸ hv, (withChecked_pass (k := fun _ => r) hv).symm.trans h⟩

/-- The end of a handler faults only where it advances from 99 (R88). -/
theorem finish_fault_at_99 {b : Bool} {s : State} {f : Fault} (h : finish b s = .fault f) :
    b = true ∧ s.ip = 99 := by
  cases b with
  | false => cases h
  | true =>
    obtain ⟨n, -, e⟩ | ⟨hip, -⟩ := advance_cases s
    · cases e.symm.trans h
    · exact ⟨rfl, hip⟩

/-- An instruction faults when its check fails, or, that passed, when it advances from 99 (R185), and not otherwise. -/
theorem exec_eq_fault_iff {i : Instr} {s : State} {f : Fault} :
    exec i s = .fault f ↔
      (f = .accOverflow ∧ ∃ v, checkedValue i s = some v ∧ accFits v = false) ∨
        (f = .ipOverflow ∧ s.ip = 99 ∧ advances i s = true ∧
          ∀ v, checkedValue i s = some v → accFits v = true) := by
  constructor
  · intro h
    rw [exec_eq_afterCheck] at h
    obtain hacc | ⟨hfits, hfinish⟩ := afterCheck_fault_cases h
    · exact .inl hacc
    · obtain ⟨hadv, hip⟩ := finish_fault_at_99 hfinish
      rw [written_ip_of_advances hadv] at hip
      exact .inr ⟨finish_eq_fault hfinish, hip, hadv, hfits⟩
  · rintro (⟨rfl, v, hcheck, hout⟩ | ⟨rfl, hip, hadv, hfits⟩)
    · exact exec_accOverflow hcheck (accFits_eq_false_iff.mp hout)
    · exact exec_ipOverflow ((Option.all_eq_true _ _).mpr hfits) hadv (by rwa [written_ip_of_advances hadv])

/-- The decoder refuses words over 999 only, and names the word (R67, R83). -/
theorem decode_eq_error {w : Int} {e : DecodeError} (h : decode w = .error e) : e = .noHandler w ∧ 999 < w := by
  by_cases hover : 999 < w
  · cases (decode_of_over hover).symm.trans h
    exact ⟨rfl, hover⟩
  · obtain ⟨i, hi⟩ := decode_of_le (not_lt.mp hover)
    cases hi.symm.trans h

/-! ### The tick that faults -/

section faultingTick

variable {s : State} (hrec : s.faultRecord = none)

include hrec

theorem hostCommand_executeCurrent_fault {f : Fault} (h : step s = .fault f) :
    hostCommand .executeCurrent s = (s.setFaultRecord (some f), .stuck) :=
  (hostCommand_obey hrec).trans (executeCurrent_fault h)

/-- IpOverflow comes from an instruction at 99: the decoder does not raise it (R83, R88). -/
theorem ip_of_step_ipOverflow (h : step s = .fault .ipOverflow) : s.ip = 99 := by
  obtain hf | ⟨⟨w⟩, -, he⟩ | ⟨i, -, hx⟩ := step_eq_fault h
  · cases hrec.symm.trans hf
  · cases he
  · obtain ⟨hacc, -⟩ | ⟨-, hip, -⟩ := exec_eq_fault_iff.mp hx
    · cases hacc
    · exact hip

/-- UndecodableWord comes from the decoder: no instruction raises it (R83, R182). -/
theorem readMem_ip_of_step_undecodable {w : Int} (h : step s = .fault (.undecodableWord w)) :
    s.readMem s.ip = w ∧ 999 < w := by
  obtain hf | ⟨e, he, hw⟩ | ⟨i, -, hx⟩ := step_eq_fault h
  · cases hrec.symm.trans hf
  · obtain ⟨rfl, hover⟩ := decode_eq_error he
    cases hw
    exact ⟨rfl, hover⟩
  · obtain hx | hx := exec_eq_fault hx <;> cases hx

end faultingTick

/-! ### The machine with a recorded fault -/

/-- With a fault recorded a session changes nothing (R183). -/
theorem hostCommands_stuck {s : State} {f : Fault} (h : s.faultRecord = some f) (cs : List Command) :
    hostCommands cs s = s := by
  induction cs with
  | nil => rfl
  | cons c cs ih => rw [hostCommands_cons, hostCommand_stuck h, ih]

/-! ### A single step -/

/-- A request in Paused or Halted and then a tick: the instruction runs in Step, and the tick ends there (R162, R85). -/
theorem hostCommands_singleStep {s u : State} {i : Instr} (hrec : s.faultRecord = none)
    (hrs : s.rs = .paused ∨ s.rs = .halted) (hi : fetchInstr s = .ok i) (hu : exec i (s.setRs .step) = .next u) :
    hostCommands [.singleStepRequest, .executeCurrent] s = endStep u := by
  have hrequest : hostCommand .singleStepRequest s = (s.setRs .step, .none) := by
    rw [hostCommand_obey hrec, obey, singleStepRequest, if_pos hrs]
  have htick : step (s.setRs .step) = .next (endStep u) := by
    rw [step_of_fetched (s := s.setRs .step) hrec (.inr rfl) hi, hu]
    rfl
  rw [hostCommands_cons, hrequest, hostCommands_cons, hostCommand_obey (s := s.setRs .step) hrec, obey,
    executeCurrent_next htick, hostCommands_nil]

end Sys2Proof.Machine

/-! PROOFS. The statements of the family about faults and single steps. -/

namespace Sys2Proof.Proofs

open Sys2Proof.Machine Sys2Proof.Safety

/-- Settles O36: `exec_eq_fault_iff`, with the accumulator's range written out. -/
theorem instructionsFaultExactlyHere : Obligations.InstructionsFaultExactlyHere := by
  intro i s f
  simpa only [accFits_iff, accFits_eq_false_iff] using exec_eq_fault_iff (i := i) (s := s) (f := f)

/-- Settles O53: the two commands leave `endStep u`, where a HLT has written Halted and every other instruction has
left Step. -/
theorem singleStepRunsOneInstruction : Obligations.SingleStepRunsOneInstruction := by
  intro s u i hrec hrs hi hu
  rw [hostCommands_singleStep hrec hrs hi hu]
  constructor
  · rintro ⟨x, rfl⟩
    have hhalted : u.rs = .halted := exec_rs hu
    exact ⟨endStep_of_ne_step (ne_of_eq_of_ne hhalted nofun), hhalted⟩
  · intro hhlt
    have hstep : u.rs = .step := (exec_rs hu).trans (written_rs _ hhlt)
    exact endStep_of_step hstep

/-- Settles O54: the gate answers the record, every command is stuck, and an end of run has no record. -/
theorem recordedFaultIsPermanent : Obligations.RecordedFaultIsPermanent := by
  intro s f hf
  refine ⟨gated_faulted hf, hostCommands_stuck hf, ?_⟩
  rintro ⟨-, hrec⟩
  cases hrec.symm.trans hf

/-- Settles O55: the command writes the record alone, and each fault is traced to the instruction or the decoder. -/
theorem faultingTickIsRecorded : Obligations.FaultingTickIsRecorded := by
  intro s f hrec h
  rw [hostCommand_executeCurrent_fault hrec h]
  refine ⟨rfl, ?_, ?_⟩
  · rintro rfl
    exact ip_of_step_ipOverflow (s := s) hrec h
  · rintro w rfl
    exact readMem_ip_of_step_undecodable hrec h

end Sys2Proof.Proofs

/-! PROOFS. The words a hard reset leaves blank (R201), and a machine whose tick is a fixed point (R208). -/

namespace Sys2Proof.Machine

/-- The bootstrap image lists no word between its program and its data (R201). -/
theorem bootWord_between {k : Nat} (h6 : 6 ≤ k) (h96 : k ≤ 96) : bootWord k = 0 := by
  unfold bootWord
  split
  case h_10 => rfl
  all_goals omega

/-- A state that a step answers with itself is left by no number of steps. -/
theorem run_of_step_eq_self {M : Host.Core} {s : M.State} (h : M.step s = .next s) (n : Nat) :
    M.run n s = .next s := by
  induction n with
  | zero => rfl
  | succ n ih =>
    rw [Host.Core.run, h]
    exact ih

end Sys2Proof.Machine

/-! PROOFS. The statements of the family about the resets and the hazards. -/

namespace Sys2Proof.Proofs

open Sys2Proof.Machine

/-- Settles O25: a word 0 to 99 is the word of opcode 0, whose tick in Running answers the same state. -/
theorem opcodeZeroLivelock : Obligations.OpcodeZeroLivelock := by
  intro s n hadv hrec hrs h0 h99
  obtain ⟨x, hx⟩ : ∃ x : Addr, s.readMem s.ip = (x.val : Int) :=
    ⟨⟨(s.readMem s.ip).toNat, by omega⟩, by simp [h0]⟩
  obtain ⟨-, -, -, -, htick⟩ := opcodeZeroFollowsItsParameter s x
  have hself : step s = .next s := (htick hadv hrec hx).1 hrs
  exact run_of_step_eq_self (M := core) hself n

/-- Settles O29: the HLT has written IP 0 and Halted, which is a run state that arms a single step and that `resume`
leaves alone. -/
theorem afterHaltRunsRestartAtZero : Obligations.AfterHaltRunsRestartAtZero := by
  intro s x
  obtain ⟨-, hexec, -⟩ := hltResetsIpAndHalts s x
  exact ⟨_, hexec, rfl, rfl, if_pos (.inr rfl), if_neg nofun⟩

/-- Settles O49: a soft reset is one write of IP and one of RS, and the command is that reset. -/
theorem softResetMovesIpAndRunStateOnly : Obligations.SoftResetMovesIpAndRunStateOnly :=
  fun _ => ⟨rfl, hostCommand_obey⟩

/-- Settles O50: after a hard reset memory reads as the bootstrap image, which is blank from 6 to 96. -/
theorem hardResetRestoresTheImage : Obligations.HardResetRestoresTheImage := by
  intro s
  have hblank : ∀ a : Addr, 6 ≤ a.val → a.val ≤ 96 → (hardReset s).readMem a = 0 :=
    fun a h6 h96 => (readMem_hardReset s a).trans (bootWord_between h6 h96)
  exact ⟨rfl, rfl, rfl, rfl, rfl, rfl, rfl, rfl, rfl, rfl, rfl, rfl, rfl, hblank, hostCommand_obey⟩

/-- Settles O51: cold construction ends in a hard reset, and the components a snapshot shows after one do not depend
on the state before it. -/
theorem coldConstructionIsAHardReset : Obligations.ColdConstructionIsAHardReset := by
  refine ⟨fun cfg s => ?_, fun _ => ⟨rfl, rfl⟩, rfl⟩
  have hword : ∀ a : Addr, (coldConstruct cfg).readMem a = (hardReset s).readMem a :=
    fun a => (readMem_hardReset _ a).trans (readMem_hardReset s a).symm
  exact snapshot_eq_iff.mpr ⟨rfl, rfl, hword, rfl, rfl⟩

end Sys2Proof.Proofs
